-- ==== Sys2Proof/Word.lean ====
section
/-! DEFINITION. The two word types of the block: the byte of buffer memory and of the streams (00_scope.md R10), and the
32-bit word of the host registers, the CRC register and the table entries (10_state.md R21, R29, R30). -/

namespace Sys2Proof

/-- A byte: 8 bits, the only addressable unit of buffer memory (R10, R45). -/
abbrev Byte := BitVec 8

/-- A 32-bit word (R9, R21). -/
abbrev Word := BitVec 32

end Sys2Proof
end

