-- ==== Sys2Proof/Config.lean ====
section
/-! DEFINITION. What the platform or the implementation fixes (the open parameters of 00_scope.md R7) and the free values
(93_implementation_defined.md U1, U2). -/

namespace Sys2Proof

/-- A range of addresses that hold no buffer memory: `size` bytes from `base`. -/
structure Hole where
  base : Nat
  size : Nat
deriving DecidableEq, Repr

/-- The three open parameters of R7, fixed for the life of an instance (R38). `MEM_VALID` is held as plain data, by the
list of the address ranges that do NOT exist, so that every predicate on the 2^32 addresses has such a list. -/
structure Platform where
  /-- `HW_CRC_AVAILABLE`: is the 8-byte-at-a-time strategy present? -/
  hwCrcAvailable : Bool
  /-- `HASH_MUL`: the multiplier of the compressor's hash. -/
  hashMul : Word
  /-- The complement of `MEM_VALID`. -/
  holes : List Hole
deriving DecidableEq, Repr

/-- `HW_CRC_AVAILABLE` of the instance that `State.reset` describes. R7 gives no default ("both values must be handled"),
so it has no body: nothing can be proved of it (log entry 2). -/
opaque Config.hwCrcAvailable : Bool

/-- The parameters of the instance that `State.reset` describes: the spec's defaults for `HASH_MUL` and `MEM_VALID` (R7),
and no chosen value for `HW_CRC_AVAILABLE`. -/
def Config.platform : Platform :=
  { hwCrcAvailable := Config.hwCrcAvailable, hashMul := 0x9E3779B1#32, holes := [] }

/-- FREE VALUE. What an unspecified byte of a destination region holds (20_memory.md R57, U1, U2): `draw` numbers the
command that left it unspecified, `addr` is its address. No body: nothing can be proved of it (log entry 3). -/
opaque Config.freeByte (draw addr : Nat) : Byte

end Sys2Proof
end

