-- ==== Sys2Proof/Syntax.lean ====
section
/-! DEFINITION. The instructions: one constructor per row of spec/opcode_table.json. -/

namespace Sys2Proof

/-- The six commands of 30_encoding.md R66, which take their operands from the host registers and have no field of their
own (R65, R68), and the token byte of the compressed stream (R70). -/
inductive Instr where
  /-- `CRC32C`, code 0x01 (40_crc32c.md R100). -/
  | crc32c
  /-- `CRC32C.HW`, code 0x02 (R99). -/
  | crc32cHw
  /-- `CRC32C.S16`, code 0x03 (R97). -/
  | crc32cS16
  /-- `CRC32C.BIT`, code 0x04 (R94). -/
  | crc32cBit
  /-- `LZ4.COMPRESS`, code 0x10 (41_lz4_compress.md R112). -/
  | lz4Compress
  /-- `LZ4.DECOMPRESS`, code 0x11 (42_lz4_decompress.md R131). -/
  | lz4Decompress
  /-- `LZ4.TOKEN`, the first byte of every sequence of a compressed stream: the literal-length nibble `ll` and the
  match-length nibble `ml`, two separate numbers 0 to 15 (R70, R187). -/
  | lz4Token (ll ml : Nat)
deriving DecidableEq, Repr

end Sys2Proof
end

