-- ==== Sys2Proof/Machine/State.lean ====
section
/-! DEFINITION. The state of the block and of the buffer memory it works on, as plain data; the reasons a step can stop;
the state after reset (10_state.md R20 to R39, 20_memory.md R45). -/

namespace Sys2Proof.Machine

/-- The host registers x[0] to x[6], by name (R21). -/
inductive Reg where
  | cmd | src | len | dst | cap | result | status
deriving DecidableEq, Repr

/-- `sel`, the cached strategy selection (R32). -/
inductive Sel where
  | unset | hw | s16
deriving DecidableEq, Repr

/-- Addresses `base` to `base + size - 1`, whose bytes command number `draw` left unspecified (R57). -/
structure Span where
  base : Nat
  size : Nat
  draw : Nat
deriving DecidableEq, Repr

/-- Buffer memory (R45). `cells` lists the bytes that are known and differ from what an unlisted address reads as, by
rising address; `spans` lists the addresses whose bytes are unspecified, by rising address. `Memory.wf` is the canonical
form. -/
structure Memory where
  cells : List Host.Cell
  spans : List Span
deriving DecidableEq, Repr

/-- The compressor's hash table `H` (R33): the position each bucket holds, by rising bucket; a bucket that is not listed
is `EMPTY`. -/
abbrev Buckets := List (Nat × Nat)

/-- The cursors of the engine that runs a command (R34, R35). They do not exist between commands: a command is one atomic
step (R8), so a host sees `idle` only. -/
inductive Engine where
  | idle
  /-- `LZ4.COMPRESS` at source position `ip`, with the bytes from `anchor` on not yet emitted and `out` produced. -/
  | compressing (ip anchor : Nat) (out : List Byte)
  /-- `LZ4.DECOMPRESS` with `ip` stream bytes read and `op` bytes written to the destination region. -/
  | decompressing (ip op : Nat)
deriving DecidableEq, Repr

/-- What the host or the platform does to the block between commands (R8, R11, R21, R45, R170). -/
inductive HostAction where
  /-- A write to x[0]: it starts a command (R22). -/
  | writeCmd (v : Byte)
  | writeSrc (v : Word)
  | writeLen (v : Word)
  | writeDst (v : Word)
  | writeCap (v : Word)
  /-- A write to x[5]: ignored (R21). -/
  | writeResult (v : Word)
  /-- A write to x[6]: ignored (R21). -/
  | writeStatus (v : Byte)
  | readReg (r : Reg)
  /-- The host stores a byte in buffer memory (R45, R60). -/
  | writeMem (a : Word) (b : Byte)
  | readMem (a : Word)
  /-- The platform's reset event (R170). -/
  | reset
deriving DecidableEq, Repr

/-- Why the machine stops. -/
inductive Fault where
  /-- Raised by a host access (not a command) to an address that is not `MEM_VALID`: the spec gives such an access no
  meaning (R45, R58). Safe: the model stops. -/
  | noSuchAddress (a : Nat)
deriving DecidableEq, Repr

/-- Why the machine gives an instruction no meaning. -/
inductive Refusal where
  /-- An instruction without a meaning yet; raised by `exec` only. Safe. -/
  | notModelled (mnemonic : String)
  /-- Raised by `LZ4.TOKEN` outside a running `LZ4.DECOMPRESS`: a token is no command (opcode_table.json, R66), so the spec
  gives it no effect there. Also raised when the cursors or the regions are not those of a started `LZ4.DECOMPRESS`
  (R47, R144). Safe: no run of commands reaches it. -/
  | noStream
  /-- Raised by a step of a compressor whose cursors or regions are not those of a started `LZ4.COMPRESS` (R34, R47).
  Safe: no run of commands reaches it. -/
  | noCompression
deriving DecidableEq, Repr

/-- The whole machine: the block's state, buffer memory, and what the host does next. -/
structure State where
  /-- x[0] `CMD`, 8 bits (R22). -/
  cmd : Byte
  /-- x[1] `SRC` (R23). -/
  src : Word
  /-- x[2] `LEN` (R23). -/
  len : Word
  /-- x[3] `DST` (R24). -/
  dst : Word
  /-- x[4] `CAP` (R24). -/
  cap : Word
  /-- x[5] `RESULT` (R25). -/
  result : Word
  /-- x[6] `STATUS`, 8 bits (R26). -/
  status : Byte
  /-- `crc`, the accumulator of the CRC commands (R29). -/
  crc : Word
  /-- `T`, sixteen tables of 256 entries (R30). -/
  tables : List (List Word)
  /-- `tables_ready` (R31). -/
  tablesReady : Bool
  /-- `sel` (R32). -/
  sel : Sel
  /-- `H` (R33). -/
  hash : Buckets
  /-- The cursors of the running engine (R34, R35). -/
  engine : Engine
  /-- Buffer memory (R45): the platform's, not the block's. -/
  mem : Memory
  /-- The model's own field: how many commands have left destination bytes unspecified (log entry 3). -/
  draws : Nat
  /-- The model's own field: the open parameters of R7, which no step changes (R38, log entry 2). -/
  platform : Platform
  /-- The model's own field: what the host does next, first action first (log entry 1). -/
  inbox : List HostAction
deriving DecidableEq, Repr

/-- The tables of a block whose tables are not built (R30, log entry 5). -/
def unbuiltTables : List (List Word) := List.replicate 16 (List.replicate 256 0)

/-- The machine right after reset (R39, R170). `crc`, `T` and `H` hold values the log names (log entry 5); memory has
nothing listed (log entry 6); the host has done nothing yet. -/
def State.reset : State :=
  { cmd := 0, src := 0, len := 0, dst := 0, cap := 0, result := 0, status := 0
    crc := 0
    tables := unbuiltTables
    tablesReady := false
    sel := .unset
    hash := []
    engine := .idle
    mem := ⟨[], []⟩
    draws := 0
    platform := Config.platform
    inbox := [] }

end Sys2Proof.Machine
end

