-- ==== Sys2Proof/Machine/Flags.lean ====
section
/-! DEFINITION. The outcome codes. The block has no condition codes (10_state.md R28): the outcome that a command leaves in
`STATUS` is the one thing a flag would be (60_exceptions.md R151). -/

namespace Sys2Proof.Machine

/-- The nine outcomes a command can end with (R151). -/
inductive Code where
  | ok
  | noneCapacity | noneNoGain
  | failSrcOverrun | failDstOverrun | failBadOffset
  | errIllegalOp | errBadRange | errUnavailable
deriving DecidableEq, Repr

/-- The value of `STATUS` for an outcome (R151). -/
def codeByte : Code → Byte
  | .ok => 0x01#8
  | .noneCapacity => 0x10#8
  | .noneNoGain => 0x11#8
  | .failSrcOverrun => 0x20#8
  | .failDstOverrun => 0x21#8
  | .failBadOffset => 0x22#8
  | .errIllegalOp => 0x30#8
  | .errBadRange => 0x31#8
  | .errUnavailable => 0x32#8

/-- `IDLE`, the value of `STATUS` until a command has ended (R26). -/
def statusIdle : Byte := 0x00#8

/-- The ten values `STATUS` can have (R26, R151). -/
def statusValues : List Byte :=
  [statusIdle, codeByte .ok, codeByte .noneCapacity, codeByte .noneNoGain, codeByte .failSrcOverrun,
   codeByte .failDstOverrun, codeByte .failBadOffset, codeByte .errIllegalOp, codeByte .errBadRange,
   codeByte .errUnavailable]

end Sys2Proof.Machine
end

