-- ==== Sys2Proof/Machine/Ops.lean ====
section
/-! DEFINITION. The named operations over memory, tables and registers, and the two ways a command ends: `finishOk` and
`raise` (00_scope.md R11, 60_exceptions.md R150). -/

namespace Sys2Proof.Machine

/-! Sorted tables keyed by a number: memory cells and hash buckets. -/

/-- The value listed for a key. -/
def assocGet {β : Type} : List (Nat × β) → Nat → Option β
  | [], _ => none
  | (k, v) :: rest, a => if k = a then some v else assocGet rest a

/-- The list with the value of a key replaced; the keys stay in rising order. -/
def assocPut {β : Type} : List (Nat × β) → Nat → β → List (Nat × β)
  | [], a, v => [(a, v)]
  | (k, w) :: rest, a, v =>
    if a < k then (a, v) :: (k, w) :: rest
    else if a = k then (a, v) :: rest
    else (k, w) :: assocPut rest a v

/-- The list without a key. -/
def assocDrop {β : Type} (l : List (Nat × β)) (a : Nat) : List (Nat × β) :=
  l.filter fun e => e.1 != a

/-! Spans of unspecified bytes (20_memory.md R57). -/

/-- Does a span cover an address? -/
def spanHas (sp : Span) (a : Nat) : Bool := decide (sp.base ≤ a) && decide (a < sp.base + sp.size)

/-- The draw of the span that covers an address. -/
def spanAt : List Span → Nat → Option Nat
  | [], _ => none
  | sp :: rest, a => if spanHas sp a then some sp.draw else spanAt rest a

/-- What is left of a span without the addresses `lo` to `hi - 1`. -/
def spanCarve (lo hi : Nat) (sp : Span) : List Span :=
  (if sp.base < min lo (sp.base + sp.size) then
      [{ sp with size := min lo (sp.base + sp.size) - sp.base }] else []) ++
  (if max hi sp.base < sp.base + sp.size then
      [{ sp with base := max hi sp.base, size := sp.base + sp.size - max hi sp.base }] else [])

/-- The list with one more span, before the first one that starts later. -/
def spanPut (sp : Span) : List Span → List Span
  | [] => [sp]
  | q :: rest => if sp.base < q.base then sp :: q :: rest else q :: spanPut sp rest

/-! Buffer memory (20_memory.md R45). -/

/-- Addresses are 0 to 2^32 - 1: `ADDR_BITS = 32` (R45). -/
def addressSpace : Nat := 2 ^ 32

/-- What an address that memory does not list reads as (log entry 6). -/
def memUnlisted : Byte := 0

/-- The byte at an address. -/
def memRead (m : Memory) (a : Nat) : Byte :=
  match spanAt m.spans a with
  | some draw => Config.freeByte draw a
  | none => (assocGet m.cells a).getD memUnlisted

/-- `MemRead(addr, n)` (R11): the bytes at `base`, `base + 1`, .. in that order. -/
def memReadBytes (m : Memory) (base n : Nat) : List Byte :=
  (List.range n).map fun i => memRead m (base + i)

/-- Stores one byte. -/
def memWrite (m : Memory) (a : Nat) (b : Byte) : Memory :=
  { cells := if b = memUnlisted then assocDrop m.cells a else assocPut m.cells a b
    spans := m.spans.flatMap (spanCarve a (a + 1)) }

/-- `MemWrite(addr, n, s)` (R11): stores the bytes at `base`, `base + 1`, .. in that order. -/
def memWriteBytes (m : Memory) (base : Nat) : List Byte → Memory
  | [] => m
  | b :: rest => memWriteBytes (memWrite m base b) (base + 1) rest

/-- Leaves the `size` bytes from `base` on unspecified (R57, U1, U2). -/
def memFree (m : Memory) (base size draw : Nat) : Memory :=
  if size = 0 then m
  else
    { cells := m.cells.filter fun c => !(decide (base ≤ c.1) && decide (c.1 < base + size))
      spans := spanPut ⟨base, size, draw⟩ (m.spans.flatMap (spanCarve base (base + size))) }

/-- The destination region of `size` bytes at `base` after an LZ4 command that produced `out`: the output at its start, every
other byte of the region unspecified (R57, R121). -/
def memSettle (m : Memory) (base size draw : Nat) (out : List Byte) : Memory :=
  memWriteBytes (memFree m base size draw) base out

/-- The canonical form of memory: listed addresses strictly rising and inside the address space; no listed byte equal to
what an unlisted address reads as, none at an unspecified address; the spans not empty, inside the address space, and each
before the next. -/
abbrev Memory.wf (m : Memory) : Prop :=
  m.cells.Pairwise (fun c d => c.1 < d.1) ∧
  (∀ c ∈ m.cells, c.1 < addressSpace ∧ c.2 ≠ memUnlisted ∧ spanAt m.spans c.1 = none) ∧
  m.spans.Pairwise (fun p q => p.base + p.size ≤ q.base) ∧
  (∀ p ∈ m.spans, 0 < p.size ∧ p.base + p.size ≤ addressSpace)

/-! The end of a command. -/

/-- `finish OK(v)` (R11, R150): `STATUS <- 0x01`, `RESULT <- v`. -/
def finishOk (v : Word) (s : State) : State := { s with result := v, status := codeByte .ok }

/-- `raise <Outcome>` (R11, R150, R155), the nearest thing to taking an exception: `STATUS` holds the outcome's code and
`RESULT` is 0; no context is saved, no mode changes and control goes nowhere, so there is no return from it (R157). -/
def raise (c : Code) (s : State) : State := { s with result := 0, status := codeByte c }

/-- The end of the memory work of an LZ4 command that produced `out`: the destination region is settled, the draw is
used up, and the cursors are gone (R57, R27, R34, R35). -/
def settleDst (out : List Byte) (s : State) : State :=
  { s with
    mem := memSettle s.mem s.dst.toNat s.cap.toNat s.draws out
    draws := s.draws + 1
    engine := .idle }

/-- An LZ4 command that ends `OK` with its output (R121, R142). -/
def finishOutput (out : List Byte) (s : State) : State :=
  finishOk (BitVec.ofNat 32 out.length) (settleDst out s)

/-- An LZ4 command that ends with `NONE_*` or `FAIL_*`: every byte of the destination region is unspecified (R57, R155). -/
def raiseOutput (c : Code) (s : State) : State := raise c (settleDst [] s)

/-- `crc <- v` (R29). -/
def setCrc (v : Word) (s : State) : State := { s with crc := v }

/-- `sel <- v` (R32). -/
def setSel (v : Sel) (s : State) : State := { s with sel := v }

end Sys2Proof.Machine
end

