-- ==== Sys2Proof/Machine/Operands.lean ====
section
/-! DEFINITION. Operands: the regions that `SRC`, `LEN`, `DST`, `CAP` name, the range check, and the groupings of bytes
(20_memory.md R46 to R52, 30_encoding.md R68, 00_scope.md R10). Operands are sampled when `CMD` is written: a command
reads them from the state it starts in (70_reset_and_hazards.md R175). -/

namespace Sys2Proof.Machine

/-- Is the address in buffer memory? `MEM_VALID` (R7, R45). -/
def memValid (p : Platform) (a : Nat) : Bool :=
  p.holes.all fun h => !(decide (h.base ≤ a) && decide (a < h.base + h.size))

/-- Is every one of the `n` addresses from `base` on `MEM_VALID`? (R47 (b), (d)). -/
def regionValid (p : Platform) (base n : Nat) : Bool :=
  p.holes.all fun h =>
    decide (n = 0) || decide (h.size = 0) || decide (base + n ≤ h.base) || decide (h.base + h.size ≤ base)

/-- Does a region stay within the address space, and exist? The checks (a) and (b), or (c) and (d), of R47. -/
def regionOk (p : Platform) (base n : Nat) : Bool :=
  decide (base + n ≤ addressSpace) && regionValid p base n

/-- Do the source and destination regions overlap? (R48). -/
def regionsOverlap (src len dst cap : Nat) : Bool :=
  decide (len ≠ 0) && decide (cap ≠ 0) && decide (src < dst + cap) && decide (dst < src + len)

/-- The range check of a CRC command (R47 (a), (b)). -/
def sourceOk (s : State) : Bool := regionOk s.platform s.src.toNat s.len.toNat

/-- The range check of an LZ4 command (R47 (a) to (e)). -/
def rangeOk (s : State) : Bool :=
  sourceOk s && regionOk s.platform s.dst.toNat s.cap.toNat &&
    !regionsOverlap s.src.toNat s.len.toNat s.dst.toNat s.cap.toNat

/-- The source region, `src[0 .. LEN)` (R46). -/
def sourceBytes (s : State) : List Byte := memReadBytes s.mem s.src.toNat s.len.toNat

/-- `LE16` (R10, R49, R73). -/
def le16 (b0 b1 : Byte) : Nat := b0.toNat + 256 * b1.toNat

/-- `LE32` (R10, R51, R52): the byte at the lowest address is the least significant. -/
def le32 (b0 b1 b2 b3 : Byte) : Word :=
  b0.setWidth 32 ||| (b1.setWidth 32 <<< 8) ||| (b2.setWidth 32 <<< 16) ||| (b3.setWidth 32 <<< 24)

/-- `LE64` (R10, R51). -/
def le64 (b0 b1 b2 b3 b4 b5 b6 b7 : Byte) : BitVec 64 :=
  b0.setWidth 64 ||| (b1.setWidth 64 <<< 8) ||| (b2.setWidth 64 <<< 16) ||| (b3.setWidth 64 <<< 24) |||
    (b4.setWidth 64 <<< 32) ||| (b5.setWidth 64 <<< 40) ||| (b6.setWidth 64 <<< 48) ||| (b7.setWidth 64 <<< 56)

/-- The byte at an index of a byte string (R10). -/
def byteAt (bs : List Byte) (i : Nat) : Byte := bs.getD i 0

/-- `LE32` of the four bytes of a byte string from index `i` on. -/
def le32At (bs : List Byte) (i : Nat) : Word :=
  le32 (byteAt bs i) (byteAt bs (i + 1)) (byteAt bs (i + 2)) (byteAt bs (i + 3))

/-- `LE64` of the eight bytes of a byte string from index `i` on. -/
def le64At (bs : List Byte) (i : Nat) : BitVec 64 :=
  le64 (byteAt bs i) (byteAt bs (i + 1)) (byteAt bs (i + 2)) (byteAt bs (i + 3))
    (byteAt bs (i + 4)) (byteAt bs (i + 5)) (byteAt bs (i + 6)) (byteAt bs (i + 7))

/-- Byte `k` of a word: its bits `8 * k + 7` down to `8 * k`. -/
def wordByte (w : Word) (k : Nat) : Byte := w.extractLsb' (8 * k) 8

/-- The value the host reads from a register (R21); narrower registers are zero-extended. A read changes nothing (R22). -/
def hostRead (r : Reg) (s : State) : Word :=
  match r with
  | .cmd => s.cmd.setWidth 32
  | .src => s.src
  | .len => s.len
  | .dst => s.dst
  | .cap => s.cap
  | .result => s.result
  | .status => s.status.setWidth 32

/-- The number of a host register (R21). -/
def regIndex : Reg → Nat
  | .cmd => 0
  | .src => 1
  | .len => 2
  | .dst => 3
  | .cap => 4
  | .result => 5
  | .status => 6

end Sys2Proof.Machine
end

