-- ==== Sys2Proof/Machine/Crc.lean ====
section
/-! DEFINITION. CRC-32C as a function of a byte string, and the bodies of its three strategies (40_crc32c.md R91 to R99). -/

namespace Sys2Proof.Machine

/-- `CRC_POLY`, the reflected polynomial (00_scope.md R6). -/
def crcPoly : Word := 0x82F63B78#32

/-- `CRC_INIT` (R6). -/
def crcInit : Word := 0xFFFFFFFF#32

/-- `CRC_XOROUT` (R6). -/
def crcXorOut : Word := 0xFFFFFFFF#32

/-- `BitStep` (R91). -/
def bitStep (c : Word) : Word := (c >>> 1) ^^^ (if c.getLsbD 0 then crcPoly else 0)

/-- `BitStep`, `n` times. -/
def bitSteps : Nat → Word → Word
  | 0, c => c
  | n + 1, c => bitSteps n (bitStep c)

/-- `ByteStep` (R92). -/
def byteStep (c : Word) (b : Byte) : Word := bitSteps 8 (c ^^^ b.setWidth 32)

/-- `CrcRaw` (R93): a left fold of `ByteStep`. -/
def crcRaw (c : Word) (bs : List Byte) : Word := bs.foldl byteStep c

/-- `Crc32c` (R93). -/
def crc32c (bs : List Byte) : Word := crcRaw crcInit bs ^^^ crcXorOut

/-! The bit-at-a-time strategy. -/

/-- The loop of R94. -/
def crcBitwise : Word → List Byte → Word
  | c, [] => c
  | c, b :: rest => crcBitwise (bitSteps 8 (c ^^^ b.setWidth 32)) rest

/-! The slicing-by-16 strategy. -/

/-- The contents of table entry `T[k][i]` once the tables are built (R95). -/
def tableEntry : Nat → Nat → Word
  | 0, i => bitSteps 8 (BitVec.ofNat 32 i)
  | k + 1, i => (tableEntry k i >>> 8) ^^^ bitSteps 8 (BitVec.ofNat 32 ((wordByte (tableEntry k i) 0).toNat))

/-- The sixteen tables of 256 entries (R95). -/
def crcTables : List (List Word) :=
  (List.range 16).map fun k => (List.range 256).map fun i => tableEntry k i

/-- `T[k][i]` as it stands in the state. -/
def tableAt (t : List (List Word)) (k i : Nat) : Word := (t.getD k []).getD i 0

/-- One of the four passes over a 16-byte block: the bytes of a word looked up in tables `k + 3` down to `k` (R97). -/
def slicePass (t : List (List Word)) (k : Nat) (w : Word) : Word :=
  tableAt t (k + 3) (wordByte w 0).toNat ^^^ tableAt t (k + 2) (wordByte w 1).toNat ^^^
    tableAt t (k + 1) (wordByte w 2).toNat ^^^ tableAt t k (wordByte w 3).toNat

/-- The step over a 16-byte block: only its first word meets the running `crc` (R97). -/
def sliceBlock (t : List (List Word)) (c : Word) (block : List Byte) : Word :=
  slicePass t 12 (c ^^^ le32At block 0) ^^^ slicePass t 8 (le32At block 4) ^^^
    slicePass t 4 (le32At block 8) ^^^ slicePass t 0 (le32At block 12)

/-- A step of the byte-at-a-time tail (R97). -/
def sliceTail (t : List (List Word)) (c : Word) (b : Byte) : Word :=
  (c >>> 8) ^^^ tableAt t 0 (wordByte (c ^^^ b.setWidth 32) 0).toNat

/-- `n` block steps from the front, then the tail (R97). -/
def sliceLoop (t : List (List Word)) : Nat → Word → List Byte → Word
  | 0, c, bs => bs.foldl (sliceTail t) c
  | n + 1, c, bs => sliceLoop t n (sliceBlock t c (bs.take 16)) (bs.drop 16)

/-- The loops of R97: `floor(LEN / 16)` blocks, then the tail. -/
def crcSlicing (t : List (List Word)) (c : Word) (bs : List Byte) : Word := sliceLoop t (bs.length / 16) c bs

/-! The 8-byte-at-a-time strategy. -/

/-- `QwordStep` (R98): the eight bytes enter least significant first. -/
def qwordStep (c : Word) (q : BitVec 64) : Word :=
  (List.range 8).foldl (fun c k => byteStep c (q.extractLsb' (8 * k) 8)) c

/-- `n` 8-byte steps from the front, then the byte tail (R99). -/
def qwordLoop : Nat → Word → List Byte → Word
  | 0, c, bs => bs.foldl byteStep c
  | n + 1, c, bs => qwordLoop n (qwordStep c (le64At bs 0)) (bs.drop 8)

/-- The loops of R99: `floor(LEN / 8)` groups, then the tail. -/
def crcQwords (c : Word) (bs : List Byte) : Word := qwordLoop (bs.length / 8) c bs

end Sys2Proof.Machine
end

