-- ==== Sys2Proof/Machine/Checksum.lean ====
section
/-! DEFINITION. The four checksum commands (40_crc32c.md R94, R97, R99 to R101). -/

namespace Sys2Proof.Machine

/-- The frame of the four commands (R101): range check, availability, start value, body, final XOR. -/
def crcFrame (available : Bool) (body : State → State) (s : State) : State :=
  if sourceOk s then
    if available then
      let t := body (setCrc crcInit s)
      finishOk (t.crc ^^^ crcXorOut) t
    else raise .errUnavailable s
  else raise .errBadRange s

/-- The body of R94. -/
def bodyBit (s : State) : State := setCrc (crcBitwise s.crc (sourceBytes s)) s

/-- Lazy initialisation of the tables (R96). -/
def ensureTables (s : State) : State :=
  if s.tablesReady then s else { s with tables := crcTables, tablesReady := true }

/-- The body of R97. -/
def bodyS16 (s : State) : State :=
  let t := ensureTables s
  setCrc (crcSlicing t.tables t.crc (sourceBytes t)) t

/-- The body of R99. -/
def bodyHw (s : State) : State := setCrc (crcQwords s.crc (sourceBytes s)) s

/-- The strategy `CRC32C` runs: the cached one, or at first use the preferred one (R100). -/
def chooseSel (s : State) : Sel :=
  match s.sel with
  | .unset => if s.platform.hwCrcAvailable then .hw else .s16
  | .hw => .hw
  | .s16 => .s16

/-- The body of R100. -/
def bodySelected (s : State) : State :=
  match chooseSel s with
  | .hw => bodyHw (setSel .hw s)
  | .s16 => bodyS16 (setSel .s16 s)
  | .unset => s

/-- `CRC32C` (R100). -/
def execCrc32c (s : State) : Host.Outcome State Fault Refusal := .next (crcFrame true bodySelected s)

/-- `CRC32C.HW` (R99). -/
def execCrc32cHw (s : State) : Host.Outcome State Fault Refusal :=
  .next (crcFrame s.platform.hwCrcAvailable bodyHw s)

/-- `CRC32C.S16` (R97). -/
def execCrc32cS16 (s : State) : Host.Outcome State Fault Refusal := .next (crcFrame true bodyS16 s)

/-- `CRC32C.BIT` (R94). -/
def execCrc32cBit (s : State) : Host.Outcome State Fault Refusal := .next (crcFrame true bodyBit s)

end Sys2Proof.Machine
end

