-- ==== Sys2Proof/WellFormed.lean ====
section
/-! DEFINITION. Which terms of `Instr` stand for an encoding: the nibbles of a token are 0 to 15 (30_encoding.md R70). -/

namespace Sys2Proof

/-- The commands carry no field (R65), so only a token is checked. -/
def Instr.wellFormed : Instr → Bool
  | .crc32c => true
  | .crc32cHw => true
  | .crc32cS16 => true
  | .crc32cBit => true
  | .lz4Compress => true
  | .lz4Decompress => true
  | .lz4Token ll ml => decide (ll < 16) && decide (ml < 16)

end Sys2Proof
end

