-- ==== Sys2Proof/Decode.lean ====
section
/-! DEFINITION. Decoding and encoding (30_encoding.md R65 to R67, R70). The block reads two kinds of byte: a command code
written to `CMD`, and the token byte of a compressed stream. Which kind a byte is follows from where it stands. -/

namespace Sys2Proof

/-- Where a byte to be decoded stands: in the command register, or at the start of a sequence of a compressed stream. -/
inductive Port where
  | command
  | stream
deriving DecidableEq, Repr

/-- Why a byte string does not decode. -/
inductive DecodeError where
  /-- No byte is left to read (R78 (a) in a stream). -/
  | nothingToRead
  /-- A `CMD` value other than the six of R66 (R67). -/
  | illegalCode (v : Byte)
deriving DecidableEq, Repr

/-- The operation code map (R66): the whole byte must match. -/
def commandTable : List (Byte × Instr) :=
  [(0x01#8, .crc32c), (0x02#8, .crc32cHw), (0x03#8, .crc32cS16), (0x04#8, .crc32cBit),
   (0x10#8, .lz4Compress), (0x11#8, .lz4Decompress)]

/-- The command a `CMD` value stands for; none for the illegal codes (R67). -/
def decodeCommand (v : Byte) : Option Instr :=
  (commandTable.find? fun row => row.1 == v).map (·.2)

/-- Token bits 7:4, the literal-length nibble (R70). -/
def tokenLL (b : Byte) : Nat := (b >>> 4).toNat

/-- Token bits 3:0, the match-length nibble (R70). -/
def tokenML (b : Byte) : Nat := (b &&& 0x0F#8).toNat

/-- The token a stream byte stands for: every one of the 256 values is legal (R70). -/
def decodeToken (b : Byte) : Instr := .lz4Token (tokenLL b) (tokenML b)

/-- The instruction at the front of a byte string, and the bytes after it. Total; it refuses by name. -/
def decode (p : Port) (bytes : List Byte) : Except DecodeError (Instr × List Byte) :=
  match p, bytes with
  | _, [] => .error .nothingToRead
  | .command, v :: rest =>
    match decodeCommand v with
    | some i => .ok (i, rest)
    | none => .error (.illegalCode v)
  | .stream, b :: rest => .ok (decodeToken b, rest)

/-- The token byte of two nibbles: the literal-length nibble high (R70, R117). -/
def encodeToken (ll ml : Nat) : Byte := (BitVec.ofNat 8 ll <<< 4) ||| BitVec.ofNat 8 ml

/-- The port at which an instruction is read. -/
def portOf : Instr → Port
  | .lz4Token _ _ => .stream
  | .crc32c | .crc32cHw | .crc32cS16 | .crc32cBit | .lz4Compress | .lz4Decompress => .command

/-- The byte of a well-formed instruction (R66, R70). -/
def encode : Instr → List Byte
  | .crc32c => [0x01#8]
  | .crc32cHw => [0x02#8]
  | .crc32cS16 => [0x03#8]
  | .crc32cBit => [0x04#8]
  | .lz4Compress => [0x10#8]
  | .lz4Decompress => [0x11#8]
  | .lz4Token ll ml => [encodeToken ll ml]

/-- The bytes of a table word of `nbits` bits, the first at the lowest address. -/
def tableBytes (nbits w : Nat) : List Byte :=
  (List.range (nbits / 8)).map fun k => BitVec.ofNat 8 (w / 256 ^ k)

/-- The instruction read from a table word. The table lists bytes of both ports, and its token row has no fixed bit, so a
word that is a command code is that command and every other word is a stream token (log entry 4). -/
def decodeTableWord (nbits w : Nat) : Option Instr :=
  match decode .command (tableBytes nbits w) with
  | .ok (i, _) => some i
  | .error _ =>
    match decode .stream (tableBytes nbits w) with
    | .ok (i, _) => some i
    | .error _ => none

end Sys2Proof
end

