-- ==== Sys2Proof/Machine/Stream.lean ====
section
/-! DEFINITION. The compressed stream: length extensions, sequences, and what a stream means (30_encoding.md R69 to R80). -/

namespace Sys2Proof.Machine

/-- `LZ4_NIBBLE_MAX`, the nibble that announces extension bytes (00_scope.md R6). -/
def nibbleMax : Nat := 15

/-- `LZ4_MINMATCH` (R6, R74). -/
def minMatch : Nat := 4

/-- `LZ4_MAX_OFFSET`, the window (R6, R73). -/
def maxOffset : Nat := 65535

/-- Extension bytes, added to a running value up to and including the first that is not 255 (R71); none where the
bytes end first. -/
def readExt : Nat → List Byte → Option (Nat × List Byte)
  | _, [] => none
  | v, e :: rest => if e = 0xFF#8 then readExt (v + 255) rest else some (v + e.toNat, rest)

/-- `ReadLen` (R71, R133): a length, and the bytes after its extension. -/
def readLen (nib : Nat) (bs : List Byte) : Option (Nat × List Byte) :=
  if nib = nibbleMax then readExt nibbleMax bs else some (nib, bs)

/-- The nibble of a length value (R80). -/
def lenNibble (v : Nat) : Nat := min v nibbleMax

/-- The extension bytes of a length value: `WriteLen` (R80), `WriteLenExt` (R117). -/
def writeExt (v : Nat) : List Byte :=
  if v < nibbleMax then []
  else List.replicate ((v - nibbleMax) / 255) 0xFF#8 ++ [BitVec.ofNat 8 ((v - nibbleMax) % 255)]

/-- Bytes appended one at a time, each equal to the byte `offset` places before the end of the output at that moment
(R76, R140). -/
def copyMatch (offset : Nat) : Nat → List Byte → List Byte
  | 0, out => out
  | k + 1, out => copyMatch offset k (out ++ [byteAt out (out.length - offset)])

/-- The bytes of a sequence that is not the last: `EmitSeq` (R69, R117). -/
def emitSeq (lits : List Byte) (offset mlen : Nat) : List Byte :=
  encodeToken (lenNibble lits.length) (lenNibble (mlen - minMatch)) :: writeExt lits.length ++ lits ++
    [BitVec.ofNat 8 offset, BitVec.ofNat 8 (offset / 256)] ++ writeExt (mlen - minMatch)

/-- The bytes of a last sequence, with a match nibble that no reader uses (R69, R75). -/
def lastSeq (lits : List Byte) (ml : Nat) : List Byte :=
  encodeToken (lenNibble lits.length) ml :: writeExt lits.length ++ lits

/-- `EmitLast` (R119): the match nibble is 0. -/
def emitLast (lits : List Byte) : List Byte := lastSeq lits 0

/-! What a stream means, written from the grammar and not from the decompressor. -/

/-- A sequence that is not the last (R69). -/
structure Sequence where
  lits : List Byte
  offset : Nat
  mlen : Nat
deriving DecidableEq, Repr

/-- A stream: its sequences, then the literals and the match nibble of the last one (R69, R75). -/
structure Stream where
  body : List Sequence
  tail : List Byte
  tailML : Nat
deriving DecidableEq, Repr

/-- The bytes of a stream (R69). -/
def streamBytes (st : Stream) : List Byte :=
  (st.body.flatMap fun q => emitSeq q.lits q.offset q.mlen) ++ lastSeq st.tail st.tailML

/-- The output after one more sequence (R76). -/
def applySeq (out : List Byte) (q : Sequence) : List Byte := copyMatch q.offset q.mlen (out ++ q.lits)

/-- The output a stream denotes (R76). -/
def streamMeaning (st : Stream) : List Byte := st.body.foldl applySeq [] ++ st.tail

/-- Can every match of the sequences be coded, and copied from the output so far? (R73, R74, R78 (c), (d)). -/
def bodyValid : List Byte → List Sequence → Prop
  | _, [] => True
  | out, q :: rest =>
    minMatch ≤ q.mlen ∧ 1 ≤ q.offset ∧ q.offset ≤ maxOffset ∧ q.offset ≤ out.length + q.lits.length ∧
      bodyValid (applySeq out q) rest

/-- The bytes `bs` are a valid stream and denote `d` (R69 to R76, R78). -/
def Denotes (bs d : List Byte) : Prop :=
  ∃ st : Stream, bodyValid [] st.body ∧ st.tailML ≤ nibbleMax ∧ streamBytes st = bs ∧ streamMeaning st = d

end Sys2Proof.Machine
end

