-- ==== Sys2Proof/Machine/Compress.lean ====
section
/-! DEFINITION. `LZ4.COMPRESS`, the reference algorithm (41_lz4_compress.md R112 to R121). -/

namespace Sys2Proof.Machine

/-- The compressor's working state (10_state.md R33, R34). -/
structure Compressor where
  ip : Nat
  anchor : Nat
  out : List Byte
  hash : Buckets
deriving DecidableEq, Repr

/-- `Hash` of four bytes read as `LE32` (R113): the top 16 bits of the low 32 bits of the product. -/
def hashWord (mul v : Word) : Nat := ((v * mul) >>> 16).toNat

/-- The bucket of a source position (R113). -/
def bucketAt (mul : Word) (bs : List Byte) (ip : Nat) : Nat := hashWord mul (le32At bs ip)

/-- `Accept` (R115): a candidate, inside the window, whose four bytes agree. -/
def acceptMatch (bs : List Byte) (ref : Option Nat) (ip : Nat) : Option Nat :=
  match ref with
  | none => none
  | some r => if ip - r ≤ maxOffset ∧ (bs.drop r).take minMatch = (bs.drop ip).take minMatch then some r else none

/-- How many bytes two byte strings agree on from the front. -/
def commonPrefix : List Byte → List Byte → Nat
  | a :: as, b :: bs => if a = b then commonPrefix as bs + 1 else 0
  | _, _ => 0

/-- `Extend` (R116): four bytes, and as many more as agree before the input ends. -/
def extendMatch (bs : List Byte) (r ip : Nat) : Nat :=
  minMatch + commonPrefix (bs.drop (r + minMatch)) (bs.drop (ip + minMatch))

/-- The source bytes from `anchor` to `ip - 1`. -/
def slice (bs : List Byte) (anchor ip : Nat) : List Byte := (bs.drop anchor).take (ip - anchor)

/-- One iteration of the main loop: look the bucket up, overwrite it, take the match or go on by one byte
(R112, R114, R118). -/
def visit (mul : Word) (bs : List Byte) (c : Compressor) : Compressor :=
  let h := bucketAt mul bs c.ip
  let hash := assocPut c.hash h c.ip
  match acceptMatch bs (assocGet c.hash h) c.ip with
  | some r =>
    let mlen := extendMatch bs r c.ip
    { ip := c.ip + mlen, anchor := c.ip + mlen, hash := hash
      out := c.out ++ emitSeq (slice bs c.anchor c.ip) (c.ip - r) mlen }
  | none => { c with ip := c.ip + 1, hash := hash }

/-- The main loop while 4 bytes can be read: every iteration moves `ip`, so as many iterations as there are bytes are
enough (R112, R122). -/
def visitLoop (mul : Word) (bs : List Byte) : Nat → Compressor → Compressor
  | 0, c => c
  | n + 1, c => if c.ip + 4 ≤ bs.length then visitLoop mul bs n (visit mul bs c) else c

/-- The start of the command: every bucket `EMPTY` (R33, R112). -/
def compressorStart : Compressor := { ip := 0, anchor := 0, out := [], hash := [] }

/-- The working state when the main loop ends. -/
def compressorEnd (mul : Word) (bs : List Byte) : Compressor := visitLoop mul bs bs.length compressorStart

/-- The complete output: what the loop emitted, and the last sequence (R119). -/
def completeOutput (bs : List Byte) (c : Compressor) : List Byte :=
  c.out ++ emitLast (slice bs c.anchor bs.length)

/-- The stream the reference algorithm makes of a byte string, before the size check. -/
def deflate (mul : Word) (bs : List Byte) : List Byte := completeOutput bs (compressorEnd mul bs)

/-- The outcome decision (R120). -/
def compressCode (len cap n : Nat) : Code :=
  if n > cap then .noneCapacity else if n ≥ len then .noneNoGain else .ok

/-- The end of the command with the complete output (R120, R121). -/
def endCompress (out : List Byte) (s : State) : State :=
  match compressCode s.len.toNat s.cap.toNat out.length with
  | .ok => finishOutput out s
  | c => raiseOutput c s

/-- `H` as the command leaves it (R33). -/
def setHash (h : Buckets) (s : State) : State := { s with hash := h }

/-- `LZ4.COMPRESS` (R112). -/
def execLz4Compress (s : State) : Host.Outcome State Fault Refusal :=
  .next (if rangeOk s then
      let c := compressorEnd s.platform.hashMul (sourceBytes s)
      endCompress (completeOutput (sourceBytes s) c) (setHash c.hash s)
    else raise .errBadRange s)

/-! The iterations of a running command. -/

/-- The working state of a running `LZ4.COMPRESS` whose regions passed the range check (R34, R47). -/
def openCompressor (s : State) : Option Compressor :=
  match s.engine with
  | .compressing ip anchor out =>
    if rangeOk s && decide (anchor ≤ ip) && decide (ip ≤ s.len.toNat) then
      some { ip := ip, anchor := anchor, out := out, hash := s.hash } else none
  | _ => none

/-- One iteration of a running `LZ4.COMPRESS`, or its end (R112). -/
def continueCompress (s : State) : Host.Outcome State Fault Refusal :=
  match openCompressor s with
  | some c =>
    .next (if c.ip + 4 ≤ s.len.toNat then
        let d := visit s.platform.hashMul (sourceBytes s) c
        { s with hash := d.hash, engine := .compressing d.ip d.anchor d.out }
      else endCompress (completeOutput (sourceBytes s) c) s)
  | none => .refused .noCompression

end Sys2Proof.Machine
end

