-- ==== Sys2Proof/Machine/Decompress.lean ====
section
/-! DEFINITION. `LZ4.DECOMPRESS`, and `LZ4.TOKEN`, one pass of its loop (42_lz4_decompress.md R131 to R141). -/

namespace Sys2Proof.Machine

/-- How one pass of the loop ends. -/
inductive PassEnd where
  /-- A match was copied: the stream bytes that remain, and the output so far. -/
  | more (rest out : List Byte)
  /-- The stream ended after the literals: the command ends `OK` (R135). -/
  | done (out : List Byte)
  | failed (c : Code)
deriving DecidableEq, Repr

/-- The match of a pass: offset, match length, the three checks, the copy (R136 to R140), in the order of R141. -/
def matchPass (cap ml : Nat) (rest out : List Byte) : PassEnd :=
  match rest with
  | b0 :: b1 :: rest =>
    match readLen ml rest with
    | none => .failed .failSrcOverrun
    | some (stored, rest) =>
      if le16 b0 b1 = 0 then .failed .failBadOffset
      else if le16 b0 b1 > out.length then .failed .failBadOffset
      else if stored + minMatch > cap - out.length then .failed .failDstOverrun
      else .more rest (copyMatch (le16 b0 b1) (stored + minMatch) out)
  | _ => .failed .failSrcOverrun

/-- One pass of the loop after its token (R131), with `rest` the stream bytes after the token and `out` the output so far:
literal length, the two literal checks, the copy, the end test, the match (R133 to R141). -/
def streamPass (cap ll ml : Nat) (rest out : List Byte) : PassEnd :=
  match readLen ll rest with
  | none => .failed .failSrcOverrun
  | some (litlen, rest) =>
    if litlen > rest.length then .failed .failSrcOverrun
    else if litlen > cap - out.length then .failed .failDstOverrun
    else if litlen = rest.length then .done (out ++ rest)
    else matchPass cap ml (rest.drop litlen) (out ++ rest.take litlen)

/-- The loop of R131: each pass reads a token, so as many passes as there are bytes are enough (R145). -/
def inflateLoop (cap : Nat) : Nat → List Byte → List Byte → Except Code (List Byte)
  | 0, _, _ => .error .failSrcOverrun
  | _ + 1, [], _ => .error .failSrcOverrun
  | n + 1, token :: rest, out =>
    match streamPass cap (tokenLL token) (tokenML token) rest out with
    | .more rest out => inflateLoop cap n rest out
    | .done out => .ok out
    | .failed c => .error c

/-- The decoded bytes of a stream, or the failure (R130). -/
def inflate (cap : Nat) (bs : List Byte) : Except Code (List Byte) := inflateLoop cap (bs.length + 1) bs []

/-- The end of `LZ4.DECOMPRESS` (R142, R143). -/
def endInflate (r : Except Code (List Byte)) (s : State) : State :=
  match r with
  | .ok out => finishOutput out s
  | .error c => raiseOutput c s

/-- `LZ4.DECOMPRESS` (R131). -/
def execLz4Decompress (s : State) : Host.Outcome State Fault Refusal :=
  .next (if rangeOk s then endInflate (inflate s.cap.toNat (sourceBytes s)) s else raise .errBadRange s)

/-! The token as an instruction of a running `LZ4.DECOMPRESS`. -/

/-- The cursors `ip` and `op` of a running `LZ4.DECOMPRESS` whose regions passed the range check (R35, R47, R144). -/
def openStream (s : State) : Option (Nat × Nat) :=
  match s.engine with
  | .decompressing ip op =>
    if rangeOk s && decide (ip ≤ s.len.toNat) && decide (op ≤ s.cap.toNat) then some (ip, op) else none
  | _ => none

/-- The state after one pass: the bytes it appended are stored and the cursors moved, or the command ends. -/
def endPass (op : Nat) (r : PassEnd) (s : State) : State :=
  match r with
  | .more rest out =>
    { s with
      mem := memWriteBytes s.mem (s.dst.toNat + op) (out.drop op)
      engine := .decompressing (s.len.toNat - rest.length) out.length }
  | .done out => finishOutput out s
  | .failed c => raiseOutput c s

/-- `LZ4.TOKEN` (R70): the pass of the decompressor's loop that the token starts, from the byte after it on, reading the
bytes that its matches copy from the destination region (R131 to R141). Outside a running `LZ4.DECOMPRESS` it is refused. -/
def execLz4Token (ll ml : Nat) (s : State) : Host.Outcome State Fault Refusal :=
  match openStream s with
  | some (ip, op) =>
    .next (endPass op
      (streamPass s.cap.toNat ll ml ((sourceBytes s).drop ip) (memReadBytes s.mem s.dst.toNat op)) s)
  | none => .refused .noStream

end Sys2Proof.Machine
end

