-- ==== Sys2Proof/Machine/Dispatch.lean ====
section
/-! DEFINITION. The meaning of each instruction, one arm per constructor (43_other_classes.md R183). -/

namespace Sys2Proof.Machine

def exec (i : Instr) (s : State) : Host.Outcome State Fault Refusal :=
  match i with
  | .crc32c => Sys2Proof.Machine.execCrc32c s
  | .crc32cHw => Sys2Proof.Machine.execCrc32cHw s
  | .crc32cS16 => Sys2Proof.Machine.execCrc32cS16 s
  | .crc32cBit => Sys2Proof.Machine.execCrc32cBit s
  | .lz4Compress => Sys2Proof.Machine.execLz4Compress s
  | .lz4Decompress => Sys2Proof.Machine.execLz4Decompress s
  | .lz4Token ll ml => Sys2Proof.Machine.execLz4Token ll ml s

end Sys2Proof.Machine
end

