-- ==== Sys2Proof/Machine/Port.lean ====
section
/-! DEFINITION. The host's side of the block: register writes and reads, buffer-memory accesses, reset; the fetch of a
stream's token; where a table word is placed to be run (10_state.md R21, R22, 70_reset_and_hazards.md R170, R172). -/

namespace Sys2Proof.Machine

/-- A write of `v` to `CMD` (R22): `v` is stored, and the command whose code is `v` runs as one atomic step; an illegal code
ends with `ERR_ILLEGAL_OP` (R67). -/
def commandWrite (v : Byte) (s : State) : Host.Outcome State Fault Refusal :=
  match decode .command [v] with
  | .ok (i, _) => exec i { s with cmd := v }
  | .error _ => .next (raise .errIllegalOp { s with cmd := v })

/-- The reset event (R39, R170): the state of reset, but buffer memory is the platform's and keeps its contents, and so do
the fields that are not state of the block. -/
def resetBlock (s : State) : State :=
  { State.reset with mem := s.mem, draws := s.draws, platform := s.platform, inbox := s.inbox }

/-- What one action of the host does (R21, R22, R45, R170). -/
def hostAct (a : HostAction) (s : State) : Host.Outcome State Fault Refusal :=
  match a with
  | .writeCmd v => commandWrite v s
  | .writeSrc v => .next { s with src := v }
  | .writeLen v => .next { s with len := v }
  | .writeDst v => .next { s with dst := v }
  | .writeCap v => .next { s with cap := v }
  | .writeResult _ => .next s
  | .writeStatus _ => .next s
  | .readReg _ => .next s
  | .writeMem a b =>
    if memValid s.platform a.toNat then .next { s with mem := memWrite s.mem a.toNat b }
    else .fault (.noSuchAddress a.toNat)
  | .readMem a => if memValid s.platform a.toNat then .next s else .fault (.noSuchAddress a.toNat)
  | .reset => .next (resetBlock s)

/-- The state once the host's first action is taken off the list. -/
def takeAction (rest : List HostAction) (s : State) : State := { s with inbox := rest }

/-- Between commands the block waits for the host (R170); an action of the host is one step. -/
def hostStep (s : State) : Host.Outcome State Fault Refusal :=
  match s.inbox with
  | [] => .next s
  | a :: rest => hostAct a (takeAction rest s)

/-- The stream cursor moved past a token that was read (R132). -/
def skipToken (ip op : Nat) (s : State) : State := { s with engine := .decompressing (ip + 1) op }

/-- A running `LZ4.DECOMPRESS` reads its next token and runs the pass it starts; with no byte left the read fails
(R131, R132). -/
def streamStep (s : State) : Host.Outcome State Fault Refusal :=
  match openStream s with
  | some (ip, op) =>
    match decode .stream ((sourceBytes s).drop ip) with
    | .ok (i, _) => exec i (skipToken ip op s)
    | .error _ => .next (raiseOutput .failSrcOverrun s)
  | none => .refused .noStream

/-- A command code placed where the next step takes it: as the host's next action. -/
def placeCommand (v : Byte) (s : State) : State :=
  { s with engine := .idle, inbox := .writeCmd v :: s.inbox }

/-- A token placed where the next step takes it: as the one byte of the stream of a running `LZ4.DECOMPRESS` that has read
nothing yet and has no room for output. -/
def placeToken (b : Byte) (s : State) : State :=
  { s with engine := .decompressing 0 0, len := 1, cap := 0, mem := memWrite s.mem s.src.toNat b }

/-- A table word placed where the next step takes it (log entry 4). -/
def placeWord (s : State) (nbits w : Nat) : State :=
  match decode .command (tableBytes nbits w) with
  | .ok _ => placeCommand ((tableBytes nbits w).headD 0) s
  | .error _ => placeToken ((tableBytes nbits w).headD 0) s

end Sys2Proof.Machine
end

