-- ==== Sys2Proof/Machine/Step.lean ====
section
/-! DEFINITION. One step of the machine (00_scope.md R8, 70_reset_and_hazards.md R182). -/

namespace Sys2Proof.Machine

/-- One step. Between commands it is one action of the host, and a write to `CMD` is a whole command (R8, R22). In the
middle of an LZ4 command, where no host ever sees the block and no step from an idle block leads, it is one pass of that
command's loop. -/
def step (s : State) : Host.Outcome State Fault Refusal :=
  match s.engine with
  | .idle => hostStep s
  | .compressing _ _ _ => continueCompress s
  | .decompressing _ _ => streamStep s

/-- `s` with a table word stored where `step` takes its next instruction from. -/
def State.withFetchWord (s : State) (nbits w : Nat) : State := placeWord s nbits w

end Sys2Proof.Machine
end

