-- ==== Sys2Proof/Safety.lean ====
section
/-! DEFINITION. The words the statements use: which addresses a command may write, what two states share, and the invariant of
a block between commands (20_memory.md R56, 10_state.md R36, 60_exceptions.md R155). -/

namespace Sys2Proof.Machine

/-- Is an address one of the `n` addresses from `base` on? -/
abbrev inRegion (base n a : Nat) : Prop := base ≤ a ∧ a < base + n

/-- Does every address read as before? -/
def SameMemory (s t : State) : Prop := ∀ a, memRead t.mem a = memRead s.mem a

/-- Does every address outside the `n` bytes from `base` on read as before? -/
def SameMemoryOutside (base n : Nat) (s t : State) : Prop :=
  ∀ a, ¬ inRegion base n a → memRead t.mem a = memRead s.mem a

/-- Are the host's own registers `CMD`, `SRC`, `LEN`, `DST`, `CAP` as before? (R21). -/
def SameOperands (s t : State) : Prop :=
  t.cmd = s.cmd ∧ t.src = s.src ∧ t.len = s.len ∧ t.dst = s.dst ∧ t.cap = s.cap

/-- Is the lazy state of the checksum engine as before? (R30 to R32). -/
def SameLazyState (s t : State) : Prop :=
  t.tables = s.tables ∧ t.tablesReady = s.tablesReady ∧ t.sel = s.sel

/-- Are the model's own inputs as before: the parameters (R38) and what the host does next? -/
def SameSurroundings (s t : State) : Prop := t.platform = s.platform ∧ t.inbox = s.inbox

/-- The four checksum commands (40_crc32c.md). -/
def checksumCommands : List Instr := [.crc32c, .crc32cHw, .crc32cS16, .crc32cBit]

/-- The two commands with a destination region. -/
def lz4Commands : List Instr := [.lz4Compress, .lz4Decompress]

/-- The six commands (R66, R183). -/
def allCommands : List Instr := checksumCommands ++ lz4Commands

/-- Once `tables_ready` is set the tables hold what R95 says (R30, R96). -/
def TablesBuilt (s : State) : Prop := s.tablesReady = true → s.tables = crcTables

/-- A strategy is cached only if it is the one that `HW_CRC_AVAILABLE` selects (R32, R100). -/
def SelConsistent (s : State) : Prop :=
  (s.sel = .hw → s.platform.hwCrcAvailable = true) ∧ (s.sel = .s16 → s.platform.hwCrcAvailable = false)

/-- What holds of the block whenever the host can look at it: no engine is in the middle of a command (R8, R27), memory is
in its canonical form, `STATUS` has one of its ten values (R26), `RESULT` is 0 unless the outcome is `OK` (R25), and the
lazy state is consistent. -/
structure BlockInv (s : State) : Prop where
  engineIdle : s.engine = .idle
  memoryCanonical : s.mem.wf
  statusLegal : s.status ∈ statusValues
  resultZeroUnlessOk : s.status ≠ codeByte .ok → s.result = 0
  tablesBuilt : TablesBuilt s
  selConsistent : SelConsistent s

/-- The state in the middle of `LZ4.DECOMPRESS` before its first token (R131). -/
def startDecompress (s : State) : State := { s with engine := .decompressing 0 0 }

/-- The state in the middle of `LZ4.COMPRESS` before its first iteration (R112). -/
def startCompress (s : State) : State := { s with engine := .compressing 0 0 [], hash := [] }

end Sys2Proof.Machine
end

