-- ==== Sys2Proof/Certificates/Slice0/Obligations.lean ====
section
/-! DEFINITION. The statements about the model. -/

open Sys2Proof Sys2Proof.Machine

/-! Encoding. -/

/-- The six command codes of R66 and four token bytes of R70, written out from the spec's tables, decode to what they stand
for. -/
def Obligations.WrittenBytesDecode : Prop :=
  decode .command [0x01#8] = .ok (.crc32c, []) ∧
  decode .command [0x02#8] = .ok (.crc32cHw, []) ∧
  decode .command [0x03#8] = .ok (.crc32cS16, []) ∧
  decode .command [0x04#8] = .ok (.crc32cBit, []) ∧
  decode .command [0x10#8] = .ok (.lz4Compress, []) ∧
  decode .command [0x11#8] = .ok (.lz4Decompress, []) ∧
  decode .stream [0x48#8] = .ok (.lz4Token 4 8, []) ∧
  decode .stream [0x1F#8] = .ok (.lz4Token 1 15, []) ∧
  decode .stream [0xF0#8] = .ok (.lz4Token 15 0, []) ∧
  decode .stream [0x01#8] = .ok (.lz4Token 0 1, [])

/-- R66: six codes are commands, and the whole byte must match; every other code is refused by name. -/
def Obligations.CommandMapIsExact : Prop :=
  ∀ (v : Byte) (rest : List Byte),
    (∀ i, decode .command (v :: rest) = .ok (i, rest) ↔
      (v = 0x01#8 ∧ i = .crc32c) ∨ (v = 0x02#8 ∧ i = .crc32cHw) ∨ (v = 0x03#8 ∧ i = .crc32cS16) ∨
      (v = 0x04#8 ∧ i = .crc32cBit) ∨ (v = 0x10#8 ∧ i = .lz4Compress) ∨ (v = 0x11#8 ∧ i = .lz4Decompress)) ∧
    (v ∉ [0x01#8, 0x02#8, 0x03#8, 0x04#8, 0x10#8, 0x11#8] →
      decode .command (v :: rest) = .error (.illegalCode v))

/-- Decoding the bytes of a well-formed instruction at its own port gives it back, with every nibble of a token at every
value, and leaves the bytes after it. -/
def Obligations.DecodeOfEncodeIsTheInstruction : Prop :=
  ∀ (i : Instr) (rest : List Byte), i.wellFormed = true → decode (portOf i) (encode i ++ rest) = .ok (i, rest)

/-- What decodes is well-formed, belongs to the port it was read at, and was read from exactly its own bytes. -/
def Obligations.EncodeOfDecodeIsTheBytes : Prop :=
  ∀ (p : Port) (bytes rest : List Byte) (i : Instr), decode p bytes = .ok (i, rest) →
    i.wellFormed = true ∧ portOf i = p ∧ bytes = encode i ++ rest

/-! Steps. -/

/-- R22: a host write of a command code stores it in `CMD` and runs the decoded command, as one step. That the write is the head
of a list in the state is the model's choice (log entry 1). -/
def Obligations.StepRunsTheDecodedCommand : Prop :=
  ∀ (s : State) (v : Byte) (rest : List HostAction) (i : Instr), s.engine = .idle → s.inbox = .writeCmd v :: rest →
    decode .command [v] = .ok (i, []) → i.wellFormed = true ∧ step s = exec i { s with inbox := rest, cmd := v }

/-- In the middle of `LZ4.DECOMPRESS` a step reads the next stream byte, moves past it, and runs the token it stands for. That
one pass is a step is the model's choice (log entry 4). -/
def Obligations.StepRunsTheDecodedToken : Prop :=
  ∀ (s : State) (ip op : Nat), s.engine = .decompressing ip op → rangeOk s = true → ip < s.len.toNat →
    op ≤ s.cap.toNat →
    (decodeToken (memRead s.mem (s.src.toNat + ip))).wellFormed = true ∧
    step s = exec (decodeToken (memRead s.mem (s.src.toNat + ip))) { s with engine := .decompressing (ip + 1) op }

/-- R67: a code that is no command ends with `ERR_ILLEGAL_OP` and changes nothing else (the host's list of actions is
log entry 1). -/
def Obligations.IllegalCodeEndsWithErrIllegalOp : Prop :=
  ∀ (s : State) (v : Byte) (rest : List HostAction), s.engine = .idle → s.inbox = .writeCmd v :: rest →
    (v.toNat = 0x00 ∨ (0x05 ≤ v.toNat ∧ v.toNat ≤ 0x0F) ∨ (0x12 ≤ v.toNat ∧ v.toNat ≤ 0xFF)) →
    step s = .next { s with inbox := rest, cmd := v, status := 0x30#8, result := 0 }

/-- R21: the host's writes to the operand registers are stored, its writes to `RESULT` and `STATUS` are ignored, and its reads
change nothing. The host's actions as a list are the model's choice (log entry 1). -/
def Obligations.HostRegisterAccesses : Prop :=
  ∀ (s : State) (rest : List HostAction) (v : Word) (b : Byte) (r : Reg), s.engine = .idle →
    (s.inbox = .writeSrc v :: rest → step s = .next { s with inbox := rest, src := v }) ∧
    (s.inbox = .writeLen v :: rest → step s = .next { s with inbox := rest, len := v }) ∧
    (s.inbox = .writeDst v :: rest → step s = .next { s with inbox := rest, dst := v }) ∧
    (s.inbox = .writeCap v :: rest → step s = .next { s with inbox := rest, cap := v }) ∧
    (s.inbox = .writeResult v :: rest → step s = .next { s with inbox := rest }) ∧
    (s.inbox = .writeStatus b :: rest → step s = .next { s with inbox := rest }) ∧
    (s.inbox = .readReg r :: rest → step s = .next { s with inbox := rest })

/-- A byte the host stores is what every later read finds there, and no other byte changes (R45, R55, R60). That the
action is a step of the model is its choice (log entry 1). -/
def Obligations.HostStoreIsSeen : Prop :=
  ∀ (s : State) (rest : List HostAction) (a : Word) (b : Byte), s.engine = .idle → s.inbox = .writeMem a b :: rest →
    memValid s.platform a.toNat = true →
    ∃ t, step s = .next t ∧ t = { s with inbox := rest, mem := t.mem } ∧
      ∀ c, memRead t.mem c = if c = a.toNat then b else memRead s.mem c

/-- The reset event (R39, R170): the registers and the lazy state take their reset values, no command runs, and buffer memory
does not change. That the event is an action on the list is the model's choice (log entry 1). -/
def Obligations.ResetEventSetsTheResetValues : Prop :=
  ∀ (s : State) (rest : List HostAction), s.engine = .idle → s.inbox = .reset :: rest →
    ∃ t, step s = .next t ∧ t.cmd = 0 ∧ t.src = 0 ∧ t.len = 0 ∧ t.dst = 0 ∧ t.cap = 0 ∧ t.result = 0 ∧
      t.status = 0x00#8 ∧ t.tablesReady = false ∧ t.sel = .unset ∧ t.engine = .idle ∧
      t.inbox = rest ∧ t.platform = s.platform ∧ SameMemory s t

/-- After reset, and after any command, the block waits for the host (R170): a step with nothing on the list of actions changes
nothing, which is the model's choice (log entry 1). -/
def Obligations.IdleBlockWaits : Prop :=
  ∀ s : State, s.engine = .idle → s.inbox = [] → step s = .next s

/-! The range check. -/

/-- R47 (b), (d): the check of a region's addresses says of each one that it is `MEM_VALID`. -/
def Obligations.RegionCheckIsPointwise : Prop :=
  ∀ (p : Platform) (base n : Nat),
    regionValid p base n = true ↔ ∀ a, inRegion base n a → memValid p a = true

/-- R47, R48: a command whose regions fail the check ends with `ERR_BAD_RANGE` and changes nothing else; one whose regions
pass does not end so. -/
def Obligations.BadRangeIsRefusedAndChangesNothing : Prop :=
  ∀ (s : State) (i : Instr),
    let badSource := s.src.toNat + s.len.toNat > 2 ^ 32 ∨
      ∃ a, inRegion s.src.toNat s.len.toNat a ∧ memValid s.platform a = false
    let badDestination := s.dst.toNat + s.cap.toNat > 2 ^ 32 ∨
      (∃ a, inRegion s.dst.toNat s.cap.toNat a ∧ memValid s.platform a = false) ∨
      (s.len.toNat ≠ 0 ∧ s.cap.toNat ≠ 0 ∧ s.src.toNat < s.dst.toNat + s.cap.toNat ∧
        s.dst.toNat < s.src.toNat + s.len.toNat)
    let bad := badSource ∨ (i ∈ lz4Commands ∧ badDestination)
    i ∈ allCommands →
      (bad → exec i s = .next { s with status := 0x31#8, result := 0 }) ∧
      (¬ bad → ∃ t, exec i s = .next t ∧ t.status ≠ 0x31#8)

/-! The checksum. -/

/-- The one value the source gives (R93): the checksum of the nine bytes "123456789". -/
def Obligations.CheckValueOfTheSource : Prop :=
  crc32c [0x31#8, 0x32#8, 0x33#8, 0x34#8, 0x35#8, 0x36#8, 0x37#8, 0x38#8, 0x39#8] = 0xE3069283#32

/-- R95: the contents of the tables, by their recurrence, as registers after zero bytes, and at the eight sample entries. -/
def Obligations.TableContents : Prop :=
  (∀ i < 256, tableAt crcTables 0 i = bitSteps 8 (BitVec.ofNat 32 i)) ∧
  (∀ k < 15, ∀ i < 256, tableAt crcTables (k + 1) i =
    (tableAt crcTables k i >>> 8) ^^^ tableAt crcTables 0 ((tableAt crcTables k i).toNat % 256)) ∧
  (∀ k < 16, ∀ i < 256, tableAt crcTables k i = crcRaw 0 (BitVec.ofNat 8 i :: List.replicate k 0)) ∧
  tableAt crcTables 0 0 = 0x00000000#32 ∧ tableAt crcTables 0 1 = 0xF26B8303#32 ∧
  tableAt crcTables 0 2 = 0xE13B70F7#32 ∧ tableAt crcTables 0 128 = 0x82F63B78#32 ∧
  tableAt crcTables 0 255 = 0xAD7D5351#32 ∧ tableAt crcTables 1 1 = 0x13A29877#32 ∧
  tableAt crcTables 15 1 = 0xF20C0DFE#32 ∧ tableAt crcTables 15 255 = 0x8FDA7DFA#32

/-- R103 (a): a byte step is one look-up in the first table. -/
def Obligations.ByteStepIsATableLookup : Prop :=
  ∀ (c : Word) (b : Byte),
    byteStep c b = (c >>> 8) ^^^ tableAt crcTables 0 (wordByte (c ^^^ b.setWidth 32) 0).toNat

/-- R103 (b): the slicing step over a 16-byte block is sixteen byte steps. -/
def Obligations.BlockStepIsSixteenByteSteps : Prop :=
  ∀ (c : Word) (block : List Byte), block.length = 16 → sliceBlock crcTables c block = crcRaw c block

/-- R103 (d): any mixture of byte look-ups, 8-byte steps and 16-byte steps that consumes the bytes in order gives the byte
fold, wherever the wide steps start. -/
def Obligations.AnyMixtureOfStepsIsTheByteFold : Prop :=
  ∀ (c : Word) (chunks : List (List Byte)),
    (∀ k ∈ chunks, k.length = 1 ∨ k.length = 8 ∨ k.length = 16) →
    chunks.foldl (fun c k =>
      if k.length = 16 then sliceBlock crcTables c k
      else if k.length = 8 then qwordStep c (le64At k 0)
      else sliceTail crcTables c (byteAt k 0)) c = crcRaw c chunks.flatten

/-- R104 (c): from a zero register the fold is linear over XOR on byte strings of one length. -/
def Obligations.CrcRawIsLinear : Prop :=
  ∀ x y : List Byte, x.length = y.length →
    crcRaw 0 (List.zipWith (fun a b => a ^^^ b) x y) = crcRaw 0 x ^^^ crcRaw 0 y

/-- R104 (b): a byte string followed by its own checksum, least significant byte first, has one fixed checksum. -/
def Obligations.ChecksumResidue : Prop :=
  ∀ s : List Byte,
    crc32c (s ++ [wordByte (crc32c s) 0, wordByte (crc32c s) 1, wordByte (crc32c s) 2, wordByte (crc32c s) 3]) =
      0x48674BC7#32

/-- R94: `CRC32C.BIT` on a region in range writes the checksum and `OK`, and changes nothing else but its accumulator,
whose value after the command is log entry 10. -/
def Obligations.Crc32cBitWritesTheChecksum : Prop :=
  ∀ s : State, sourceOk s = true →
    exec .crc32cBit s = .next { s with
      crc := crcRaw 0xFFFFFFFF#32 (sourceBytes s), result := crc32c (sourceBytes s), status := 0x01#8 }

/-- R99: `CRC32C.HW`, where the strategy is available, writes the checksum and `OK`, and changes nothing else but its
accumulator, whose value after the command is log entry 10. -/
def Obligations.Crc32cHwWritesTheChecksum : Prop :=
  ∀ s : State, sourceOk s = true → s.platform.hwCrcAvailable = true →
    exec .crc32cHw s = .next { s with
      crc := crcRaw 0xFFFFFFFF#32 (sourceBytes s), result := crc32c (sourceBytes s), status := 0x01#8 }

/-- R96, R97: `CRC32C.S16` writes the checksum and `OK`, leaves the tables built, and changes nothing else but its
accumulator, whose value after the command is log entry 10. -/
def Obligations.Crc32cS16WritesTheChecksum : Prop :=
  ∀ s : State, sourceOk s = true → TablesBuilt s →
    exec .crc32cS16 s = .next { s with
      tables := crcTables, tablesReady := true,
      crc := crcRaw 0xFFFFFFFF#32 (sourceBytes s), result := crc32c (sourceBytes s), status := 0x01#8 }

/-- R100: `CRC32C` runs the cached strategy, or at first use selects and caches one, and writes the checksum and `OK`; the
tables are built only if the strategy is slicing-by-16. The accumulator's value after the command is log entry 10. -/
def Obligations.Crc32cWritesTheChecksum : Prop :=
  ∀ s : State, sourceOk s = true → TablesBuilt s →
    ((s.sel = .hw ∨ (s.sel = .unset ∧ s.platform.hwCrcAvailable = true)) →
      exec .crc32c s = .next { s with
        sel := .hw,
        crc := crcRaw 0xFFFFFFFF#32 (sourceBytes s), result := crc32c (sourceBytes s), status := 0x01#8 }) ∧
    ((s.sel = .s16 ∨ (s.sel = .unset ∧ s.platform.hwCrcAvailable = false)) →
      exec .crc32c s = .next { s with
        sel := .s16, tables := crcTables, tablesReady := true,
        crc := crcRaw 0xFFFFFFFF#32 (sourceBytes s), result := crc32c (sourceBytes s), status := 0x01#8 })

/-- R99, R101: where the strategy is not available, `CRC32C.HW` on a region in range ends with `ERR_UNAVAILABLE` and changes
nothing else. -/
def Obligations.HwCommandIsRefusedWhereUnavailable : Prop :=
  ∀ s : State, sourceOk s = true → s.platform.hwCrcAvailable = false →
    exec .crc32cHw s = .next { s with status := 0x32#8, result := 0 }

/-- R102: the checksum commands return one value for one byte string, whichever command runs, whether or not the 8-byte
strategy exists, whatever is cached, whether or not the tables are built, and wherever the bytes stand. -/
def Obligations.StrategiesAgree : Prop :=
  ∀ (s t : State) (i j : Instr), i ∈ checksumCommands → j ∈ checksumCommands →
    TablesBuilt s → TablesBuilt t → sourceOk s = true → sourceOk t = true →
    (i = .crc32cHw → s.platform.hwCrcAvailable = true) → (j = .crc32cHw → t.platform.hwCrcAvailable = true) →
    sourceBytes s = sourceBytes t →
    ∃ s' t', exec i s = .next s' ∧ exec j t = .next t' ∧ s'.status = 0x01#8 ∧ t'.status = 0x01#8 ∧
      s'.result = t'.result

/-- What a checksum command leaves unchanged: the host's registers, every byte of memory, the hash table, the cursors and the
surroundings; the explicit strategies leave the cached selection, and all but slicing-by-16 the tables. -/
def Obligations.ChecksumCommandsFrame : Prop :=
  ∀ (s t : State) (i : Instr), i ∈ checksumCommands → exec i s = .next t →
    SameOperands s t ∧ SameSurroundings s t ∧ SameMemory s t ∧ t.hash = s.hash ∧ t.engine = s.engine ∧
      t.draws = s.draws ∧
      (i = .crc32cHw ∨ i = .crc32cBit → SameLazyState s t) ∧
      (i = .crc32cS16 → t.sel = s.sel)

/-! The compressed stream. -/

/-- R80: how a length is coded; reading inverts it, and no other nibble and bytes read as the same length. -/
def Obligations.LengthCodingIsOneToOne : Prop :=
  (∀ v, v < 15 → lenNibble v = v ∧ writeExt v = []) ∧
  (∀ v, 15 ≤ v → lenNibble v = 15 ∧
    writeExt v = List.replicate ((v - 15) / 255) 0xFF#8 ++ [BitVec.ofNat 8 ((v - 15) % 255)]) ∧
  (∀ v rest, readLen (lenNibble v) (writeExt v ++ rest) = some (v, rest)) ∧
  (∀ nib bytes v rest, nib ≤ 15 → readLen nib bytes = some (v, rest) →
    nib = lenNibble v ∧ bytes = writeExt v ++ rest) ∧
  writeExt 15 = [0x00#8] ∧ writeExt 19 = [0x04#8] ∧ writeExt 269 = [0xFE#8] ∧
  writeExt 270 = [0xFF#8, 0x00#8] ∧ writeExt 295 = [0xFF#8, 0x19#8] ∧ writeExt 525 = [0xFF#8, 0xFF#8, 0x00#8]

/-- R82: the size of a stream of literals only, which is longer than its input; so a compressor that finds no match cannot
end `OK`. -/
def Obligations.LiteralOnlyStreamSize : Prop :=
  (∀ lits : List Byte, (emitLast lits).length =
    if lits.length < 15 then lits.length + 1 else lits.length + 2 + (lits.length - 15) / 255) ∧
  (∀ lits : List Byte, lits.length < (emitLast lits).length) ∧
  (∀ s t : State, exec .lz4Compress s = .next t →
    (compressorEnd s.platform.hashMul (sourceBytes s)).out = [] → t.status ≠ 0x01#8)

/-- R76, R140: a match appends its bytes one at a time, each equal to the byte `offset` places before it, so that a match that
overlaps its own output repeats the last `offset` bytes. -/
def Obligations.MatchCopyRepeatsTheLastBytes : Prop :=
  ∀ (offset n : Nat) (out : List Byte), 1 ≤ offset → offset ≤ out.length →
    (copyMatch offset n out).length = out.length + n ∧
    (∀ k < out.length, byteAt (copyMatch offset n out) k = byteAt out k) ∧
    (∀ k < n, byteAt (copyMatch offset n out) (out.length + k) =
      byteAt (copyMatch offset n out) (out.length + k - offset)) ∧
    (∀ k < n, byteAt (copyMatch offset n out) (out.length + k) = byteAt out (out.length - offset + k % offset))

/-! `LZ4.TOKEN`. -/

/-- R131 to R140: in a running `LZ4.DECOMPRESS` a token whose sequence is whole, refers back to output that exists and fits the
capacity appends its literals and its match, moves both cursors, and changes nothing else. The token as
an instruction is the model's choice (log entry 4). -/
def Obligations.TokenCopiesItsSequence : Prop :=
  ∀ (s : State) (ip op : Nat) (q : Sequence) (rest : List Byte),
    s.engine = .decompressing ip op → rangeOk s = true → ip ≤ s.len.toNat → op ≤ s.cap.toNat →
    (sourceBytes s).drop ip = writeExt q.lits.length ++ q.lits ++
      [BitVec.ofNat 8 q.offset, BitVec.ofNat 8 (q.offset / 256)] ++ writeExt (q.mlen - 4) ++ rest →
    4 ≤ q.mlen → 1 ≤ q.offset → q.offset ≤ 65535 → q.offset ≤ op + q.lits.length →
    op + q.lits.length + q.mlen ≤ s.cap.toNat →
    ∃ t, exec (.lz4Token (lenNibble q.lits.length) (lenNibble (q.mlen - 4))) s = .next t ∧
      t = { s with
        engine := .decompressing (s.len.toNat - rest.length) (op + q.lits.length + q.mlen), mem := t.mem } ∧
      memReadBytes t.mem s.dst.toNat (op + q.lits.length + q.mlen) =
        copyMatch q.offset q.mlen (memReadBytes s.mem s.dst.toNat op ++ q.lits) ∧
      SameMemoryOutside (s.dst.toNat + op) (q.lits.length + q.mlen) s t

/-- R75, R135: a token after whose literals the stream ends is the last one, whatever its match nibble: the command ends `OK`
with the length of its output, and the output stands in the destination region. The token as an instruction is the
model's choice (log entry 4). -/
def Obligations.LastTokenEndsTheCommand : Prop :=
  ∀ (s : State) (ip op ml : Nat) (lits : List Byte),
    s.engine = .decompressing ip op → rangeOk s = true → ip ≤ s.len.toNat → op ≤ s.cap.toNat →
    (sourceBytes s).drop ip = writeExt lits.length ++ lits → op + lits.length ≤ s.cap.toNat →
    ∃ t, exec (.lz4Token (lenNibble lits.length) ml) s = .next t ∧
      t.status = 0x01#8 ∧ t.result.toNat = op + lits.length ∧ t.engine = .idle ∧
      memReadBytes t.mem s.dst.toNat (op + lits.length) = memReadBytes s.mem s.dst.toNat op ++ lits ∧
      SameMemoryOutside s.dst.toNat s.cap.toNat s t

/-- R141: the first fault met in the order of reads and checks inside a sequence is the one a token ends with. The token as
an instruction is the model's choice (log entry 4). -/
def Obligations.TokenReportsTheFirstFault : Prop :=
  ∀ (s : State) (ip op ll ml : Nat), s.engine = .decompressing ip op → rangeOk s = true → ip ≤ s.len.toNat →
    op ≤ s.cap.toNat →
    let bytes := (sourceBytes s).drop ip
    let endsWith (code : Byte) :=
      ∃ t, exec (.lz4Token ll ml) s = .next t ∧ t.status = code ∧ t.result = 0 ∧ t.engine = .idle
    (readLen ll bytes = none → endsWith 0x20#8) ∧
    ∀ litlen rest, readLen ll bytes = some (litlen, rest) →
      (rest.length < litlen → endsWith 0x20#8) ∧
      (litlen ≤ rest.length → s.cap.toNat - op < litlen → endsWith 0x21#8) ∧
      (litlen ≤ s.cap.toNat - op → rest.length = litlen + 1 → endsWith 0x20#8) ∧
      ∀ b0 b1 more, litlen ≤ s.cap.toNat - op → rest.drop litlen = b0 :: b1 :: more →
        (readLen ml more = none → endsWith 0x20#8) ∧
        ∀ stored after, readLen ml more = some (stored, after) →
          (b0.toNat + 256 * b1.toNat = 0 ∨ op + litlen < b0.toNat + 256 * b1.toNat → endsWith 0x22#8) ∧
          (1 ≤ b0.toNat + 256 * b1.toNat → b0.toNat + 256 * b1.toNat ≤ op + litlen →
            s.cap.toNat - (op + litlen) < stored + 4 → endsWith 0x21#8)

/-- What a token leaves unchanged: every register but `RESULT` and `STATUS`, the checksum engine, the hash table, the
surroundings, and every byte of memory outside the destination region; where the command goes on, every byte but those the
pass appended. The token as an instruction is the model's choice (log entry 4). -/
def Obligations.TokenFrame : Prop :=
  ∀ (s t : State) (ip op ll ml : Nat), s.engine = .decompressing ip op → exec (.lz4Token ll ml) s = .next t →
    SameOperands s t ∧ SameLazyState s t ∧ SameSurroundings s t ∧ t.crc = s.crc ∧ t.hash = s.hash ∧
      SameMemoryOutside s.dst.toNat s.cap.toNat s t ∧
      (∀ ip' op', t.engine = .decompressing ip' op' →
        SameMemoryOutside (s.dst.toNat + op) (op' - op) s t ∧ t.result = s.result ∧ t.status = s.status)

/-- The model's choice (log entry 4): a token outside a running `LZ4.DECOMPRESS` is refused by name, since it is no
command. -/
def Obligations.TokenOutsideAStreamIsRefused : Prop :=
  ∀ (s : State) (ll ml : Nat), (∀ ip op, s.engine ≠ .decompressing ip op) →
    exec (.lz4Token ll ml) s = .refused .noStream

/-! `LZ4.DECOMPRESS`. -/

/-- R142: on a valid stream whose output fits the capacity, `LZ4.DECOMPRESS` ends `OK`, `RESULT` is the length of the output
the stream denotes, and that output stands at the start of the destination region. -/
def Obligations.DecompressWritesTheDecodedBytes : Prop :=
  ∀ (s : State) (d : List Byte), rangeOk s = true → Denotes (sourceBytes s) d → d.length ≤ s.cap.toNat →
    ∃ t, exec .lz4Decompress s = .next t ∧ t.status = 0x01#8 ∧ t.result.toNat = d.length ∧
      memReadBytes t.mem s.dst.toNat d.length = d ∧ t.engine = .idle ∧
      SameMemoryOutside s.dst.toNat s.cap.toNat s t

/-- R148: `LZ4.DECOMPRESS` ends `OK` with some output exactly if the stream is valid, denotes that output and fits the
capacity; on a valid stream that does not fit it ends with `FAIL_DST_OVERRUN`, on an invalid one with a `FAIL_*` code. -/
def Obligations.DecompressOkExactlyOnValidStreams : Prop :=
  ∀ s : State, rangeOk s = true →
    ∃ t, exec .lz4Decompress s = .next t ∧
      (∀ d, (t.status = 0x01#8 ∧ t.result.toNat = d.length ∧ memReadBytes t.mem s.dst.toNat d.length = d) ↔
        Denotes (sourceBytes s) d ∧ d.length ≤ s.cap.toNat) ∧
      (∀ d, Denotes (sourceBytes s) d → s.cap.toNat < d.length → t.status = 0x21#8 ∧ t.result = 0) ∧
      ((¬ ∃ d, Denotes (sourceBytes s) d) → t.status ∈ [0x20#8, 0x21#8, 0x22#8] ∧ t.result = 0)

/-- A byte string denotes at most one output (R76). -/
def Obligations.StreamsHaveOneMeaning : Prop :=
  ∀ bytes d d' : List Byte, Denotes bytes d → Denotes bytes d' → d = d'

/-- The atomic `LZ4.DECOMPRESS` is the run of its token passes (R131), in every field of the state. The passes as steps are the
model's choice (log entry 4). -/
def Obligations.DecompressIsItsTokenPasses : Prop :=
  ∀ s : State, rangeOk s = true →
    ∃ k ≤ s.len.toNat + 1, Host.Core.run Sys2Proof.core k (startDecompress s) = exec .lz4Decompress s

/-! `LZ4.COMPRESS`. -/

/-- R113: the hash of four bytes, a number 0 to 65535, with four of the spec's examples. -/
def Obligations.HashOfFourBytes : Prop :=
  (∀ (mul : Word) (b0 b1 b2 b3 : Byte), hashWord mul (le32 b0 b1 b2 b3) =
    ((b0.toNat + 2 ^ 8 * b1.toNat + 2 ^ 16 * b2.toNat + 2 ^ 24 * b3.toNat) * mul.toNat) % 2 ^ 32 / 2 ^ 16) ∧
  (∀ mul v : Word, hashWord mul v < 65536) ∧
  hashWord 0x9E3779B1#32 (le32 0x61#8 0x62#8 0x63#8 0x64#8) = 0x630D ∧
  hashWord 0x9E3779B1#32 (le32 0x00#8 0x00#8 0x00#8 0x00#8) = 0x0000 ∧
  hashWord 0x9E3779B1#32 (le32 0x61#8 0x61#8 0x61#8 0x61#8) = 0x2532 ∧
  hashWord 0x9E3779B1#32 (le32 0xFF#8 0xFF#8 0xFF#8 0xFF#8) = 0x61C8

/-- R116: a match of an earlier position that agrees on four bytes is made as long as the input allows. -/
def Obligations.MatchesAreMaximal : Prop :=
  ∀ (bs : List Byte) (r ip : Nat), r < ip → ip + 4 ≤ bs.length →
    (∀ k < 4, byteAt bs (r + k) = byteAt bs (ip + k)) →
    4 ≤ extendMatch bs r ip ∧ ip + extendMatch bs r ip ≤ bs.length ∧
    (∀ k < extendMatch bs r ip, byteAt bs (r + k) = byteAt bs (ip + k)) ∧
    (ip + extendMatch bs r ip = bs.length ∨
      byteAt bs (r + extendMatch bs r ip) ≠ byteAt bs (ip + extendMatch bs r ip))

/-- R120, R121: the outcome of `LZ4.COMPRESS` by the length of the reference algorithm's complete output, and on `OK` the
output itself in the destination region. -/
def Obligations.CompressOutcomeDecision : Prop :=
  ∀ s : State, rangeOk s = true →
    let out := deflate s.platform.hashMul (sourceBytes s)
    ∃ t, exec .lz4Compress s = .next t ∧ t.engine = .idle ∧ SameMemoryOutside s.dst.toNat s.cap.toNat s t ∧
      (out.length > s.cap.toNat → t.status = 0x10#8 ∧ t.result = 0) ∧
      (out.length ≤ s.cap.toNat → out.length ≥ s.len.toNat → t.status = 0x11#8 ∧ t.result = 0) ∧
      (out.length ≤ s.cap.toNat → out.length < s.len.toNat →
        t.status = 0x01#8 ∧ t.result.toNat = out.length ∧ memReadBytes t.mem s.dst.toNat out.length = out)

/-- R123 (b): with every multiplier the reference algorithm makes of every byte string a valid stream that denotes it. -/
def Obligations.CompressedStreamDenotesItsInput : Prop :=
  ∀ (mul : Word) (bs : List Byte), Denotes (deflate mul bs) bs

/-- R111: what `OK` of `LZ4.COMPRESS` guarantees, for every multiplier: the output fits, is shorter than the input, is a valid
stream (all of whose matches have an offset of 1 to 65535 and a length of at least 4) that denotes the input, and
`LZ4.DECOMPRESS` of it with any capacity of at least `LEN` gives the input back. -/
def Obligations.CompressedDataRoundTrips : Prop :=
  ∀ s t : State, rangeOk s = true → exec .lz4Compress s = .next t → t.status = 0x01#8 →
    let y := memReadBytes t.mem s.dst.toNat t.result.toNat
    t.result.toNat ≤ s.cap.toNat ∧ t.result.toNat < s.len.toNat ∧
    (∃ st : Stream, bodyValid [] st.body ∧ st.tailML ≤ 15 ∧ streamBytes st = y ∧ streamMeaning st = sourceBytes s ∧
      ∀ q ∈ st.body, 1 ≤ q.offset ∧ q.offset ≤ 65535 ∧ 4 ≤ q.mlen) ∧
    (∀ u : State, rangeOk u = true → sourceBytes u = y → s.len.toNat ≤ u.cap.toNat →
      ∃ v, exec .lz4Decompress u = .next v ∧ v.status = 0x01#8 ∧ v.result = s.len ∧
        memReadBytes v.mem u.dst.toNat s.len.toNat = sourceBytes s)

/-- R122: the complete output exceeds the input by at most `2 + floor(n / 255)` bytes. -/
def Obligations.CompressedSizeBound : Prop :=
  ∀ (mul : Word) (bs : List Byte), (deflate mul bs).length ≤ bs.length + 2 + bs.length / 255

/-- R123 (c), (d): `OK` needs an input of at least 6 bytes and leaves at least 5. -/
def Obligations.CompressOkNeedsSixBytes : Prop :=
  ∀ s t : State, rangeOk s = true → exec .lz4Compress s = .next t → t.status = 0x01#8 →
    6 ≤ s.len.toNat ∧ 5 ≤ t.result.toNat

/-- The atomic `LZ4.COMPRESS` is the run of its iterations (R112), in every field of the state. The iterations as steps are the
model's choice (log entry 4). -/
def Obligations.CompressIsItsIterations : Prop :=
  ∀ s : State, rangeOk s = true →
    ∃ k ≤ s.len.toNat + 1, Host.Core.run Sys2Proof.core k (startCompress s) = exec .lz4Compress s

/-- What an LZ4 command leaves unchanged: the host's registers, the checksum engine, the surroundings, every byte of memory
outside the destination region, and, where it was refused, every byte; `LZ4.DECOMPRESS` also leaves the hash table. -/
def Obligations.Lz4CommandsFrame : Prop :=
  ∀ (s t : State) (i : Instr), i ∈ lz4Commands → exec i s = .next t →
    SameOperands s t ∧ SameLazyState s t ∧ SameSurroundings s t ∧ t.crc = s.crc ∧
      SameMemoryOutside s.dst.toNat s.cap.toNat s t ∧
      (t.status = 0x31#8 → SameMemory s t ∧ t.hash = s.hash) ∧
      (i = .lz4Decompress → t.hash = s.hash)

/-! All commands. -/

/-- R183: every command ends, with one of the outcomes the spec lists for it. -/
def Obligations.OutcomesOfEachCommand : Prop :=
  ∀ s : State,
    (∃ t, exec .crc32c s = .next t ∧ t.status ∈ [0x01#8, 0x31#8]) ∧
    (∃ t, exec .crc32cHw s = .next t ∧ t.status ∈ [0x01#8, 0x31#8, 0x32#8]) ∧
    (∃ t, exec .crc32cS16 s = .next t ∧ t.status ∈ [0x01#8, 0x31#8]) ∧
    (∃ t, exec .crc32cBit s = .next t ∧ t.status ∈ [0x01#8, 0x31#8]) ∧
    (∃ t, exec .lz4Compress s = .next t ∧ t.status ∈ [0x01#8, 0x10#8, 0x11#8, 0x31#8]) ∧
    (∃ t, exec .lz4Decompress s = .next t ∧ t.status ∈ [0x01#8, 0x20#8, 0x21#8, 0x22#8, 0x31#8])

/-- R155: what changes when a command ends without `OK`: `STATUS` and `RESULT` (0), and for `NONE_*` and `FAIL_*` bytes of the
destination region; `CMD`, the operands, every byte outside the destination region and the source region do not. -/
def Obligations.FailureLeavesTheRestAsItWas : Prop :=
  ∀ (s t : State) (i : Instr), i ∈ allCommands → exec i s = .next t → t.status ≠ 0x01#8 →
    t.result = 0 ∧ SameOperands s t ∧ SameMemoryOutside s.dst.toNat s.cap.toNat s t ∧
      sourceBytes t = sourceBytes s ∧
      (t.status ∉ [0x10#8, 0x11#8, 0x20#8, 0x21#8, 0x22#8] → SameMemory s t)

/-- R156: a command that ends without `OK` leaves the tables, their flag and the cached selection exactly as before. -/
def Obligations.FailureLeavesTheLazyState : Prop :=
  ∀ (s t : State) (i : Instr), i ∈ allCommands → exec i s = .next t → t.status ≠ 0x01#8 → SameLazyState s t

/-- R55: no command writes its source region. -/
def Obligations.SourceRegionIsNeverWritten : Prop :=
  ∀ (s t : State) (i : Instr), i ∈ allCommands → exec i s = .next t → sourceBytes t = sourceBytes s

/-- R36, R185: a command's outcome, `RESULT` and output depend only on its operands, the bytes of its source region and the
parameters: not on what ran before, nor on any other byte of memory, the old destination bytes among them. -/
def Obligations.ResultDependsOnOperandsAndSourceOnly : Prop :=
  ∀ (s t : State) (i : Instr), i ∈ allCommands → TablesBuilt s → TablesBuilt t →
    s.src = t.src → s.len = t.len → s.dst = t.dst → s.cap = t.cap → s.platform = t.platform →
    sourceBytes s = sourceBytes t →
    ∃ s' t', exec i s = .next s' ∧ exec i t = .next t' ∧ s'.status = t'.status ∧ s'.result = t'.result ∧
      (i ∈ lz4Commands → s'.status = 0x01#8 →
        memReadBytes s'.mem s.dst.toNat s'.result.toNat = memReadBytes t'.mem t.dst.toNat t'.result.toNat)

/-! The machine. -/

/-- The invariant of a block between commands holds at reset (R39), with the reset values of log entries 2, 5 and 6. -/
def Obligations.ResetSatisfiesTheInvariant : Prop := BlockInv State.reset

/-- Every step from a block between commands leaves a block between commands: memory canonical, `STATUS` legal, `RESULT` 0 unless
`OK`, the tables right if built, the cached selection the right one, no command half done. -/
def Obligations.EveryStepKeepsTheInvariant : Prop :=
  ∀ s t : State, BlockInv s → step s = .next t → BlockInv t

/-- R38: no step changes the parameters; and a step takes at most one action off what the host does next. That the host's
actions stand in the state as a list, and that a step takes at most one of them, is the model's choice (log entry 1). -/
def Obligations.EveryStepKeepsTheParameters : Prop :=
  ∀ s t : State, step s = .next t → t.platform = s.platform ∧ (t.inbox = s.inbox ∨ t.inbox = s.inbox.tail)
end

