-- ==== Sys2Proof/Laws/Assoc.lean ====
section
/-! SUPPORT. The sorted tables of Ops.lean: what is read after a change, and that the keys stay in rising order. -/

namespace Sys2Proof.Machine

variable {β : Type}

/-- The keys of a table are strictly rising. -/
abbrev Rising (l : List (Nat × β)) : Prop := l.Pairwise fun c d => c.1 < d.1

theorem assocGet_eq_none_of_forall_ne {l : List (Nat × β)} {a : Nat} (h : ∀ e ∈ l, e.1 ≠ a) :
    assocGet l a = none := by
  induction l with
  | nil => rfl
  | cons e rest ih =>
    rw [assocGet, if_neg (h e (by simp)), ih fun e he => h e (by simp [he])]

theorem assocGet_mem {l : List (Nat × β)} {a : Nat} {v : β} (h : assocGet l a = some v) : (a, v) ∈ l := by
  induction l with
  | nil => simp [assocGet] at h
  | cons e rest ih =>
    obtain ⟨k, w⟩ := e
    rw [assocGet] at h
    split at h
    · simp_all
    · simp [ih h]

theorem assocGet_assocPut {l : List (Nat × β)} (a c : Nat) (v : β) :
    assocGet (assocPut l a v) c = if a = c then some v else assocGet l c := by
  induction l with
  | nil => simp [assocPut, assocGet]
  | cons e rest ih =>
    obtain ⟨k, w⟩ := e
    rw [assocPut]
    split
    · simp [assocGet]
    · split
      · subst a; simp only [assocGet]; split <;> simp_all
      · simp only [assocGet, ih]; split <;> simp_all

theorem assocGet_filter {l : List (Nat × β)} (keep : Nat → Bool) (c : Nat) :
    assocGet (l.filter fun e => keep e.1) c = if keep c then assocGet l c else none := by
  induction l with
  | nil => simp [assocGet]
  | cons e rest ih =>
    obtain ⟨k, w⟩ := e
    simp only [List.filter_cons, assocGet]
    by_cases hk : k = c
    · subst hk; by_cases h : keep k <;> simp [h, ih, assocGet]
    · by_cases h : keep k <;> simp [h, ih, assocGet, hk]

theorem assocGet_assocDrop (l : List (Nat × β)) (a c : Nat) :
    assocGet (assocDrop l a) c = if a = c then none else assocGet l c := by
  rw [assocDrop, assocGet_filter fun k => k != a]
  by_cases h : a = c
  · simp [h]
  · have : c ≠ a := fun e => h e.symm
    simp [h, this]

theorem mem_assocPut {l : List (Nat × β)} {a : Nat} {v : β} {e : Nat × β} (h : e ∈ assocPut l a v) :
    e = (a, v) ∨ e ∈ l := by
  induction l with
  | nil => simpa [assocPut] using h
  | cons d rest ih =>
    obtain ⟨k, w⟩ := d
    rw [assocPut] at h
    split at h
    · simpa using h
    · split at h
      · simp only [List.mem_cons] at h ⊢; tauto
      · simp only [List.mem_cons] at h ⊢
        rcases h with h | h
        · exact .inr (.inl h)
        · rcases ih h with h | h <;> simp [h]

theorem assocPut_rising {l : List (Nat × β)} (h : Rising l) (a : Nat) (v : β) : Rising (assocPut l a v) := by
  induction l with
  | nil => simp [assocPut]
  | cons d rest ih =>
    obtain ⟨k, w⟩ := d
    obtain ⟨hk, hr⟩ := List.pairwise_cons.1 h
    rw [assocPut]
    split
    · refine List.pairwise_cons.2 ⟨fun e he => ?_, h⟩
      rcases List.mem_cons.1 he with rfl | he
      · assumption
      · exact lt_trans ‹a < k› (hk e he)
    · split
      · subst a; exact List.pairwise_cons.2 ⟨hk, hr⟩
      · refine List.pairwise_cons.2 ⟨fun e he => ?_, ih hr⟩
        rcases mem_assocPut he with rfl | he
        · exact show k < a by omega
        · exact hk e he

theorem assocDrop_rising {l : List (Nat × β)} (h : Rising l) (a : Nat) : Rising (assocDrop l a) := h.filter _

theorem mem_assocDrop {l : List (Nat × β)} {a : Nat} {e : Nat × β} : e ∈ assocDrop l a ↔ e ∈ l ∧ e.1 ≠ a := by
  simp [assocDrop]

end Sys2Proof.Machine
end

