-- ==== Sys2Proof/Laws/Memory.lean ====
section
/-! SUPPORT. Buffer memory: what is read after each operation, and that each keeps the canonical form. -/

namespace Sys2Proof.Machine

/-! Spans. -/

theorem spanAt_append (l r : List Span) (a : Nat) : spanAt (l ++ r) a = (spanAt l a).or (spanAt r a) := by
  induction l with
  | nil => rfl
  | cons sp rest ih => simp only [List.cons_append, spanAt, ih]; split <;> simp

theorem spanAt_spanCarve {lo hi : Nat} (h : lo < hi) (sp : Span) (a : Nat) :
    spanAt (spanCarve lo hi sp) a = if inRegion lo (hi - lo) a then none else spanAt [sp] a := by
  obtain ⟨b, n, d⟩ := sp
  simp only [spanCarve, spanAt_append, inRegion]
  split <;> split <;> (simp only [spanAt, spanHas, Bool.and_eq_true, decide_eq_true_eq]; split_ifs) <;>
    simp <;> omega

theorem spanAt_flatMap_spanCarve {lo hi : Nat} (h : lo < hi) (l : List Span) (a : Nat) :
    spanAt (l.flatMap (spanCarve lo hi)) a = if inRegion lo (hi - lo) a then none else spanAt l a := by
  induction l with
  | nil => simp [spanAt]
  | cons sp rest ih =>
    rw [List.flatMap_cons, spanAt_append, spanAt_spanCarve h, ih]
    split
    · rfl
    · rw [← spanAt_append]; rfl

/-- The pieces of a span are not empty, lie inside it and outside what was carved out, and do not meet. -/
theorem mem_spanCarve {lo hi : Nat} {sp p : Span} (h : p ∈ spanCarve lo hi sp) :
    0 < p.size ∧ sp.base ≤ p.base ∧ p.base + p.size ≤ sp.base + sp.size ∧ (p.base + p.size ≤ lo ∨ hi ≤ p.base) := by
  simp only [spanCarve, List.mem_append] at h
  rcases h with h | h <;> split at h <;> simp at h <;> subst h <;> simp <;> omega

/-- Each span ends before the next begins. -/
abbrev SpansRising (l : List Span) : Prop := l.Pairwise fun p q => p.base + p.size ≤ q.base

theorem spanCarve_rising {lo hi : Nat} (h : lo < hi) (sp : Span) : SpansRising (spanCarve lo hi sp) := by
  simp only [spanCarve]
  split_ifs <;> simp [SpansRising]; omega

theorem flatMap_spanCarve_rising {lo hi : Nat} (h : lo < hi) {l : List Span} (hl : SpansRising l) :
    SpansRising (l.flatMap (spanCarve lo hi)) := by
  induction l with
  | nil => simp [SpansRising]
  | cons sp rest ih =>
    obtain ⟨hs, hr⟩ := List.pairwise_cons.1 hl
    rw [List.flatMap_cons]
    refine List.pairwise_append.2 ⟨spanCarve_rising h sp, ih hr, fun p hp q hq => ?_⟩
    obtain ⟨r, hr, hq⟩ := List.mem_flatMap.1 hq
    have h1 := mem_spanCarve hp
    have h2 := mem_spanCarve hq
    have h3 := hs r hr
    omega

theorem mem_spanPut {sp p : Span} {l : List Span} : p ∈ spanPut sp l ↔ p = sp ∨ p ∈ l := by
  induction l with
  | nil => simp [spanPut]
  | cons q rest ih => rw [spanPut]; split <;> simp [ih, or_left_comm]

theorem spanAt_spanPut {sp : Span} {l : List Span} {a : Nat} (h : spanHas sp a = true → spanAt l a = none) :
    spanAt (spanPut sp l) a = if spanHas sp a then some sp.draw else spanAt l a := by
  induction l with
  | nil => rfl
  | cons q rest ih =>
    rw [spanPut]
    split
    · rfl
    · by_cases hq : spanHas q a = true
      · have hsp : ¬ spanHas sp a = true := fun hsp => by have := h hsp; rw [spanAt, if_pos hq] at this; cases this
        rw [spanAt, if_pos hq, if_neg hsp, spanAt, if_pos hq]
      · rw [spanAt, if_neg hq] at h ⊢
        rw [ih h, spanAt, if_neg hq]

/-- A span that meets no other keeps the order. -/
theorem spanPut_rising {sp : Span} {l : List Span} (h0 : 0 < sp.size) (hl : SpansRising l)
    (h : ∀ p ∈ l, 0 < p.size ∧ (p.base + p.size ≤ sp.base ∨ sp.base + sp.size ≤ p.base)) :
    SpansRising (spanPut sp l) := by
  induction l with
  | nil => simp [spanPut, SpansRising]
  | cons q rest ih =>
    obtain ⟨hs, hr⟩ := List.pairwise_cons.1 hl
    have hq := h q (by simp)
    rw [spanPut]
    split
    · refine List.pairwise_cons.2 ⟨fun p hp => ?_, hl⟩
      rcases List.mem_cons.1 hp with rfl | hp
      · omega
      · have := hs p hp; omega
    · refine List.pairwise_cons.2 ⟨fun p hp => ?_, ih hr fun p hp => h p (by simp [hp])⟩
      rcases mem_spanPut.1 hp with rfl | hp
      · omega
      · exact hs p hp

/-! Reading after a change. -/

theorem memRead_memWrite (m : Memory) (a c : Nat) (b : Byte) :
    memRead (memWrite m a b) c = if c = a then b else memRead m c := by
  have h1 : a < a + 1 := by omega
  by_cases h : c = a
  · subst h
    by_cases hb : b = memUnlisted
    · simp [memRead, memWrite, spanAt_flatMap_spanCarve h1, inRegion, hb, assocGet_assocDrop]
    · simp [memRead, memWrite, spanAt_flatMap_spanCarve h1, inRegion, hb, assocGet_assocPut]
  · have h2 : ¬ inRegion a 1 c := by simp only [inRegion]; omega
    have h3 : a ≠ c := fun e => h e.symm
    by_cases hb : b = memUnlisted
    · simp [memRead, memWrite, spanAt_flatMap_spanCarve h1, h2, hb, assocGet_assocDrop, h, h3]
    · simp [memRead, memWrite, spanAt_flatMap_spanCarve h1, h2, hb, assocGet_assocPut, h, h3]

theorem memRead_memWriteBytes (m : Memory) (base : Nat) (bs : List Byte) (c : Nat) :
    memRead (memWriteBytes m base bs) c = if inRegion base bs.length c then bs.getD (c - base) 0 else memRead m c := by
  induction bs generalizing m base with
  | nil =>
    have : ¬ inRegion base 0 c := by simp only [inRegion]; omega
    simp [memWriteBytes, this]
  | cons b rest ih =>
    rw [memWriteBytes, ih, memRead_memWrite]
    by_cases h : c = base
    · subst h
      have h1 : ¬ inRegion (c + 1) rest.length c := by simp only [inRegion]; omega
      simp [h1]
    · by_cases h1 : inRegion (base + 1) rest.length c
      · have h2 : inRegion base (b :: rest).length c := by simp only [inRegion, List.length_cons] at h1 ⊢; omega
        have h3 : c - base = (c - (base + 1)) + 1 := by simp only [inRegion] at h1; omega
        rw [if_pos h1, if_pos h2, h3, List.getD_cons_succ]
      · have h2 : ¬ inRegion base (b :: rest).length c := by simp only [inRegion, List.length_cons] at h1 ⊢; omega
        rw [if_neg h1, if_neg h, if_neg h2]

theorem memRead_memFree (m : Memory) (base size draw c : Nat) :
    memRead (memFree m base size draw) c = if inRegion base size c then Config.freeByte draw c else memRead m c := by
  by_cases hs : size = 0
  · have : ¬ inRegion base size c := by simp only [inRegion]; omega
    rw [if_neg this]
    simp [memFree, hs]
  · have h1 : base < base + size := by omega
    have hhas : spanHas ⟨base, size, draw⟩ c = true ↔ inRegion base size c := by simp [spanHas, inRegion]
    rw [memFree, if_neg hs, memRead, spanAt_spanPut, spanAt_flatMap_spanCarve h1]
    · by_cases h : inRegion base size c
      · rw [if_pos (hhas.2 h), if_pos h]
      · have h3 : ¬ inRegion base (base + size - base) c := by simpa using h
        have h4 := assocGet_filter (l := m.cells) (fun k => !(decide (base ≤ k) && decide (k < base + size))) c
        have h5 : (!(decide (base ≤ c) && decide (c < base + size))) = true := by
          simp only [inRegion] at h; simp only [Bool.not_eq_true', Bool.and_eq_false_iff, decide_eq_false_iff_not]; omega
        rw [h5, if_pos rfl] at h4
        rw [if_neg (mt hhas.1 h), if_neg h3, if_neg h, memRead, h4]
    · intro h
      rw [spanAt_flatMap_spanCarve h1, if_pos (by simpa using hhas.1 h)]

/-- The one lemma about the memory an LZ4 command leaves: its output, then unspecified bytes, and nothing else changed. -/
theorem memRead_memSettle (m : Memory) (base size draw : Nat) (out : List Byte) (c : Nat) :
    memRead (memSettle m base size draw out) c =
      if inRegion base out.length c then out.getD (c - base) 0
      else if inRegion base size c then Config.freeByte draw c else memRead m c := by
  rw [memSettle, memRead_memWriteBytes, memRead_memFree]

/-- Output that fits the region changes nothing outside it. -/
theorem memRead_memSettle_outside {m : Memory} {base size draw : Nat} {out : List Byte} {c : Nat}
    (hout : out.length ≤ size) (h : ¬ inRegion base size c) :
    memRead (memSettle m base size draw out) c = memRead m c := by
  have : ¬ inRegion base out.length c := by simp only [inRegion] at h ⊢; omega
  rw [memRead_memSettle, if_neg this, if_neg h]

/-! Byte strings read from memory. -/

@[simp] theorem memReadBytes_length (m : Memory) (base n : Nat) : (memReadBytes m base n).length = n := by
  simp [memReadBytes]

theorem memReadBytes_getElem (m : Memory) (base n i : Nat) (h : i < (memReadBytes m base n).length) :
    (memReadBytes m base n)[i] = memRead m (base + i) := by
  simp [memReadBytes]

theorem memReadBytes_congr {m m' : Memory} {base n : Nat} (h : ∀ a, inRegion base n a → memRead m' a = memRead m a) :
    memReadBytes m' base n = memReadBytes m base n := by
  simp only [memReadBytes]
  refine List.map_congr_left fun i hi => h _ ?_
  simp only [inRegion, List.mem_range] at hi ⊢
  omega

theorem memReadBytes_memSettle (m : Memory) (base size draw : Nat) (out : List Byte) :
    memReadBytes (memSettle m base size draw out) base out.length = out := by
  refine List.ext_getElem (by simp) fun i h1 h2 => ?_
  have : inRegion base out.length (base + i) := by simp only [inRegion]; omega
  rw [memReadBytes_getElem, memRead_memSettle, if_pos this]
  simp [List.getD_eq_getElem?_getD, h2]

/-! The canonical form. -/

theorem memWrite_wf {m : Memory} (h : m.wf) {a : Nat} (ha : a < addressSpace) (b : Byte) : (memWrite m a b).wf := by
  obtain ⟨h1, h2, h3, h4⟩ := h
  have hlt : a < a + 1 := by omega
  refine ⟨?_, ?_, flatMap_spanCarve_rising hlt h3, ?_⟩
  · simp only [memWrite]; split
    · exact assocDrop_rising h1 a
    · exact assocPut_rising h1 a b
  · intro c hc
    simp only [memWrite] at hc ⊢
    rw [spanAt_flatMap_spanCarve hlt]
    split at hc
    · obtain ⟨hc, -⟩ := mem_assocDrop.1 hc
      obtain ⟨g1, g2, g3⟩ := h2 c hc
      exact ⟨g1, g2, by split <;> simp [g3]⟩
    · rcases mem_assocPut hc with rfl | hc
      · refine ⟨ha, ‹_›, ?_⟩
        have : inRegion a (a + 1 - a) a := by simp only [inRegion]; omega
        rw [if_pos this]
      · obtain ⟨g1, g2, g3⟩ := h2 c hc
        exact ⟨g1, g2, by split <;> simp [g3]⟩
  · intro p hp
    obtain ⟨q, hq, hp⟩ := List.mem_flatMap.1 hp
    have g1 := mem_spanCarve hp
    have g2 := h4 q hq
    omega

theorem memWriteBytes_wf {m : Memory} (h : m.wf) {base : Nat} (bs : List Byte) (hb : base + bs.length ≤ addressSpace) :
    (memWriteBytes m base bs).wf := by
  induction bs generalizing m base with
  | nil => exact h
  | cons b rest ih =>
    simp only [List.length_cons] at hb
    exact ih (memWrite_wf h (by omega) b) (by omega)

theorem memFree_wf {m : Memory} (h : m.wf) {base size : Nat} (hb : base + size ≤ addressSpace) (draw : Nat) :
    (memFree m base size draw).wf := by
  by_cases hs : size = 0
  · simpa [memFree, hs] using h
  obtain ⟨h1, h2, h3, h4⟩ := h
  have hlt : base < base + size := by omega
  have hcarve : ∀ p ∈ m.spans.flatMap (spanCarve base (base + size)),
      0 < p.size ∧ (p.base + p.size ≤ base ∨ base + size ≤ p.base) ∧ p.base + p.size ≤ addressSpace := by
    intro p hp
    obtain ⟨q, hq, hp⟩ := List.mem_flatMap.1 hp
    have g1 := mem_spanCarve hp
    have g2 := h4 q hq
    omega
  rw [memFree, if_neg hs]
  refine ⟨h1.filter _, ?_, spanPut_rising (by simp only; omega) (flatMap_spanCarve_rising hlt h3) fun p hp =>
    ⟨(hcarve p hp).1, (hcarve p hp).2.1⟩, ?_⟩
  · intro c hc
    obtain ⟨hc, hout⟩ := List.mem_filter.1 hc
    obtain ⟨g1, g2, g3⟩ := h2 c hc
    refine ⟨g1, g2, ?_⟩
    have : ¬ spanHas ⟨base, size, draw⟩ c.1 = true := by
      simp only [spanHas, Bool.not_eq_true', Bool.not_eq_true] at hout ⊢; exact hout
    rw [spanAt_spanPut fun h => absurd h this, if_neg this, spanAt_flatMap_spanCarve hlt]
    split <;> simp [g3]
  · intro p hp
    rcases mem_spanPut.1 hp with rfl | hp
    · exact ⟨by simp only; omega, hb⟩
    · exact ⟨(hcarve p hp).1, (hcarve p hp).2.2⟩

theorem memSettle_wf {m : Memory} (h : m.wf) {base size : Nat} (hb : base + size ≤ addressSpace) (draw : Nat)
    {out : List Byte} (ho : out.length ≤ size) : (memSettle m base size draw out).wf :=
  memWriteBytes_wf (memFree_wf h hb draw) out (by omega)

theorem reset_memory_wf : State.reset.mem.wf := by decide

end Sys2Proof.Machine
end

