-- ==== Sys2Proof/Laws/Operands.lean ====
section
/-! SUPPORT. The regions and the range check in arithmetic, and what a settled destination region leaves of the source. -/

namespace Sys2Proof.Machine

@[simp] theorem sourceBytes_length (s : State) : (sourceBytes s).length = s.len.toNat := by simp [sourceBytes]

theorem regionsOverlap_eq_false {src len dst cap : Nat} :
    regionsOverlap src len dst cap = false ↔ len = 0 ∨ cap = 0 ∨ dst + cap ≤ src ∨ src + len ≤ dst := by
  simp only [regionsOverlap, Bool.and_eq_false_iff, decide_eq_false_iff_not, not_not]
  omega

/-- What the range check of a CRC command gives. -/
theorem sourceOk_iff (s : State) :
    sourceOk s = true ↔ s.src.toNat + s.len.toNat ≤ addressSpace ∧
      regionValid s.platform s.src.toNat s.len.toNat = true := by
  simp [sourceOk, regionOk]

/-- What the range check of an LZ4 command gives. -/
theorem rangeOk_iff (s : State) :
    rangeOk s = true ↔ sourceOk s = true ∧
      (s.dst.toNat + s.cap.toNat ≤ addressSpace ∧ regionValid s.platform s.dst.toNat s.cap.toNat = true) ∧
      (s.len.toNat = 0 ∨ s.cap.toNat = 0 ∨ s.dst.toNat + s.cap.toNat ≤ s.src.toNat ∨
        s.src.toNat + s.len.toNat ≤ s.dst.toNat) := by
  rw [← regionsOverlap_eq_false]
  simp [rangeOk, regionOk, and_assoc]

/-- In range, no address is in both regions. -/
theorem rangeOk_disjoint {s : State} (h : rangeOk s = true) {a : Nat} (ha : inRegion s.src.toNat s.len.toNat a) :
    ¬ inRegion s.dst.toNat s.cap.toNat a := by
  have := ((rangeOk_iff s).1 h).2.2
  simp only [inRegion] at ha ⊢
  omega

/-- Settling the destination region leaves the source region as it was. -/
theorem memReadBytes_memSettle_source {s : State} (h : rangeOk s = true) {draw : Nat} {out : List Byte}
    (hout : out.length ≤ s.cap.toNat) :
    memReadBytes (memSettle s.mem s.dst.toNat s.cap.toNat draw out) s.src.toNat s.len.toNat = sourceBytes s :=
  memReadBytes_congr fun _ ha => memRead_memSettle_outside hout (rangeOk_disjoint h ha)

/-- `LE32` is the sum of R10. -/
theorem le32_toNat (b0 b1 b2 b3 : Byte) :
    (le32 b0 b1 b2 b3).toNat = b0.toNat + 2 ^ 8 * b1.toNat + 2 ^ 16 * b2.toNat + 2 ^ 24 * b3.toNat := by
  have h0 := b0.isLt
  have h1 := b1.isLt
  have h2 := b2.isLt
  have h3 := b3.isLt
  have e1 : (b1.toNat % 2 ^ 32) <<< 8 % 2 ^ 32 = b1.toNat <<< 8 := by simp only [Nat.shiftLeft_eq]; omega
  have e2 : (b2.toNat % 2 ^ 32) <<< 16 % 2 ^ 32 = b2.toNat <<< 16 := by simp only [Nat.shiftLeft_eq]; omega
  have e3 : (b3.toNat % 2 ^ 32) <<< 24 % 2 ^ 32 = b3.toNat <<< 24 := by simp only [Nat.shiftLeft_eq]; omega
  simp only [le32, BitVec.toNat_or, BitVec.toNat_shiftLeft, BitVec.toNat_setWidth, e1, e2, e3]
  rw [Nat.mod_eq_of_lt (show b0.toNat < 2 ^ 32 by omega), Nat.or_comm b0.toNat,
    ← Nat.shiftLeft_add_eq_or_of_lt h0, Nat.or_comm _ (b2.toNat <<< 16),
    ← Nat.shiftLeft_add_eq_or_of_lt (by simp only [Nat.shiftLeft_eq]; omega), Nat.or_comm _ (b3.toNat <<< 24),
    ← Nat.shiftLeft_add_eq_or_of_lt (by simp only [Nat.shiftLeft_eq]; omega)]
  simp only [Nat.shiftLeft_eq]
  omega

/-- The bytes of an `LE32` word. -/
theorem wordByte_le32 (b0 b1 b2 b3 : Byte) :
    wordByte (le32 b0 b1 b2 b3) 0 = b0 ∧ wordByte (le32 b0 b1 b2 b3) 1 = b1 ∧
      wordByte (le32 b0 b1 b2 b3) 2 = b2 ∧ wordByte (le32 b0 b1 b2 b3) 3 = b3 := by
  have h0 := b0.isLt
  have h1 := b1.isLt
  have h2 := b2.isLt
  have h3 := b3.isLt
  refine ⟨?_, ?_, ?_, ?_⟩ <;> apply BitVec.eq_of_toNat_eq <;>
    simp only [wordByte, BitVec.extractLsb'_toNat, le32_toNat, Nat.shiftRight_eq_div_pow] <;> omega

end Sys2Proof.Machine
end

