-- ==== Sys2Proof/Laws/State.lean ====
section
/-! SUPPORT. One lemma per field per update of the state, so that no proof unfolds a record update. -/

namespace Sys2Proof.Machine

/-! `finishOk` -/

@[simp] theorem finishOk_cmd (v : Word) (s : State) : (finishOk v s).cmd = s.cmd := rfl
@[simp] theorem finishOk_src (v : Word) (s : State) : (finishOk v s).src = s.src := rfl
@[simp] theorem finishOk_len (v : Word) (s : State) : (finishOk v s).len = s.len := rfl
@[simp] theorem finishOk_dst (v : Word) (s : State) : (finishOk v s).dst = s.dst := rfl
@[simp] theorem finishOk_cap (v : Word) (s : State) : (finishOk v s).cap = s.cap := rfl
@[simp] theorem finishOk_result (v : Word) (s : State) : (finishOk v s).result = v := rfl
@[simp] theorem finishOk_status (v : Word) (s : State) : (finishOk v s).status = codeByte .ok := rfl
@[simp] theorem finishOk_crc (v : Word) (s : State) : (finishOk v s).crc = s.crc := rfl
@[simp] theorem finishOk_tables (v : Word) (s : State) : (finishOk v s).tables = s.tables := rfl
@[simp] theorem finishOk_tablesReady (v : Word) (s : State) : (finishOk v s).tablesReady = s.tablesReady := rfl
@[simp] theorem finishOk_sel (v : Word) (s : State) : (finishOk v s).sel = s.sel := rfl
@[simp] theorem finishOk_hash (v : Word) (s : State) : (finishOk v s).hash = s.hash := rfl
@[simp] theorem finishOk_engine (v : Word) (s : State) : (finishOk v s).engine = s.engine := rfl
@[simp] theorem finishOk_mem (v : Word) (s : State) : (finishOk v s).mem = s.mem := rfl
@[simp] theorem finishOk_draws (v : Word) (s : State) : (finishOk v s).draws = s.draws := rfl
@[simp] theorem finishOk_platform (v : Word) (s : State) : (finishOk v s).platform = s.platform := rfl
@[simp] theorem finishOk_inbox (v : Word) (s : State) : (finishOk v s).inbox = s.inbox := rfl

/-! `raise` -/

@[simp] theorem raise_cmd (c : Code) (s : State) : (raise c s).cmd = s.cmd := rfl
@[simp] theorem raise_src (c : Code) (s : State) : (raise c s).src = s.src := rfl
@[simp] theorem raise_len (c : Code) (s : State) : (raise c s).len = s.len := rfl
@[simp] theorem raise_dst (c : Code) (s : State) : (raise c s).dst = s.dst := rfl
@[simp] theorem raise_cap (c : Code) (s : State) : (raise c s).cap = s.cap := rfl
@[simp] theorem raise_result (c : Code) (s : State) : (raise c s).result = 0 := rfl
@[simp] theorem raise_status (c : Code) (s : State) : (raise c s).status = codeByte c := rfl
@[simp] theorem raise_crc (c : Code) (s : State) : (raise c s).crc = s.crc := rfl
@[simp] theorem raise_tables (c : Code) (s : State) : (raise c s).tables = s.tables := rfl
@[simp] theorem raise_tablesReady (c : Code) (s : State) : (raise c s).tablesReady = s.tablesReady := rfl
@[simp] theorem raise_sel (c : Code) (s : State) : (raise c s).sel = s.sel := rfl
@[simp] theorem raise_hash (c : Code) (s : State) : (raise c s).hash = s.hash := rfl
@[simp] theorem raise_engine (c : Code) (s : State) : (raise c s).engine = s.engine := rfl
@[simp] theorem raise_mem (c : Code) (s : State) : (raise c s).mem = s.mem := rfl
@[simp] theorem raise_draws (c : Code) (s : State) : (raise c s).draws = s.draws := rfl
@[simp] theorem raise_platform (c : Code) (s : State) : (raise c s).platform = s.platform := rfl
@[simp] theorem raise_inbox (c : Code) (s : State) : (raise c s).inbox = s.inbox := rfl

/-! `settleDst` -/

@[simp] theorem settleDst_cmd (out : List Byte) (s : State) : (settleDst out s).cmd = s.cmd := rfl
@[simp] theorem settleDst_src (out : List Byte) (s : State) : (settleDst out s).src = s.src := rfl
@[simp] theorem settleDst_len (out : List Byte) (s : State) : (settleDst out s).len = s.len := rfl
@[simp] theorem settleDst_dst (out : List Byte) (s : State) : (settleDst out s).dst = s.dst := rfl
@[simp] theorem settleDst_cap (out : List Byte) (s : State) : (settleDst out s).cap = s.cap := rfl
@[simp] theorem settleDst_result (out : List Byte) (s : State) : (settleDst out s).result = s.result := rfl
@[simp] theorem settleDst_status (out : List Byte) (s : State) : (settleDst out s).status = s.status := rfl
@[simp] theorem settleDst_crc (out : List Byte) (s : State) : (settleDst out s).crc = s.crc := rfl
@[simp] theorem settleDst_tables (out : List Byte) (s : State) : (settleDst out s).tables = s.tables := rfl
@[simp] theorem settleDst_tablesReady (out : List Byte) (s : State) : (settleDst out s).tablesReady = s.tablesReady := rfl
@[simp] theorem settleDst_sel (out : List Byte) (s : State) : (settleDst out s).sel = s.sel := rfl
@[simp] theorem settleDst_hash (out : List Byte) (s : State) : (settleDst out s).hash = s.hash := rfl
@[simp] theorem settleDst_engine (out : List Byte) (s : State) : (settleDst out s).engine = .idle := rfl
@[simp] theorem settleDst_mem (out : List Byte) (s : State) : (settleDst out s).mem = memSettle s.mem s.dst.toNat s.cap.toNat s.draws out := rfl
@[simp] theorem settleDst_draws (out : List Byte) (s : State) : (settleDst out s).draws = s.draws + 1 := rfl
@[simp] theorem settleDst_platform (out : List Byte) (s : State) : (settleDst out s).platform = s.platform := rfl
@[simp] theorem settleDst_inbox (out : List Byte) (s : State) : (settleDst out s).inbox = s.inbox := rfl

/-! `finishOutput` -/

@[simp] theorem finishOutput_cmd (out : List Byte) (s : State) : (finishOutput out s).cmd = s.cmd := rfl
@[simp] theorem finishOutput_src (out : List Byte) (s : State) : (finishOutput out s).src = s.src := rfl
@[simp] theorem finishOutput_len (out : List Byte) (s : State) : (finishOutput out s).len = s.len := rfl
@[simp] theorem finishOutput_dst (out : List Byte) (s : State) : (finishOutput out s).dst = s.dst := rfl
@[simp] theorem finishOutput_cap (out : List Byte) (s : State) : (finishOutput out s).cap = s.cap := rfl
@[simp] theorem finishOutput_result (out : List Byte) (s : State) : (finishOutput out s).result = BitVec.ofNat 32 out.length := rfl
@[simp] theorem finishOutput_status (out : List Byte) (s : State) : (finishOutput out s).status = codeByte .ok := rfl
@[simp] theorem finishOutput_crc (out : List Byte) (s : State) : (finishOutput out s).crc = s.crc := rfl
@[simp] theorem finishOutput_tables (out : List Byte) (s : State) : (finishOutput out s).tables = s.tables := rfl
@[simp] theorem finishOutput_tablesReady (out : List Byte) (s : State) : (finishOutput out s).tablesReady = s.tablesReady := rfl
@[simp] theorem finishOutput_sel (out : List Byte) (s : State) : (finishOutput out s).sel = s.sel := rfl
@[simp] theorem finishOutput_hash (out : List Byte) (s : State) : (finishOutput out s).hash = s.hash := rfl
@[simp] theorem finishOutput_engine (out : List Byte) (s : State) : (finishOutput out s).engine = .idle := rfl
@[simp] theorem finishOutput_mem (out : List Byte) (s : State) : (finishOutput out s).mem = memSettle s.mem s.dst.toNat s.cap.toNat s.draws out := rfl
@[simp] theorem finishOutput_draws (out : List Byte) (s : State) : (finishOutput out s).draws = s.draws + 1 := rfl
@[simp] theorem finishOutput_platform (out : List Byte) (s : State) : (finishOutput out s).platform = s.platform := rfl
@[simp] theorem finishOutput_inbox (out : List Byte) (s : State) : (finishOutput out s).inbox = s.inbox := rfl

/-! `raiseOutput` -/

@[simp] theorem raiseOutput_cmd (c : Code) (s : State) : (raiseOutput c s).cmd = s.cmd := rfl
@[simp] theorem raiseOutput_src (c : Code) (s : State) : (raiseOutput c s).src = s.src := rfl
@[simp] theorem raiseOutput_len (c : Code) (s : State) : (raiseOutput c s).len = s.len := rfl
@[simp] theorem raiseOutput_dst (c : Code) (s : State) : (raiseOutput c s).dst = s.dst := rfl
@[simp] theorem raiseOutput_cap (c : Code) (s : State) : (raiseOutput c s).cap = s.cap := rfl
@[simp] theorem raiseOutput_result (c : Code) (s : State) : (raiseOutput c s).result = 0 := rfl
@[simp] theorem raiseOutput_status (c : Code) (s : State) : (raiseOutput c s).status = codeByte c := rfl
@[simp] theorem raiseOutput_crc (c : Code) (s : State) : (raiseOutput c s).crc = s.crc := rfl
@[simp] theorem raiseOutput_tables (c : Code) (s : State) : (raiseOutput c s).tables = s.tables := rfl
@[simp] theorem raiseOutput_tablesReady (c : Code) (s : State) : (raiseOutput c s).tablesReady = s.tablesReady := rfl
@[simp] theorem raiseOutput_sel (c : Code) (s : State) : (raiseOutput c s).sel = s.sel := rfl
@[simp] theorem raiseOutput_hash (c : Code) (s : State) : (raiseOutput c s).hash = s.hash := rfl
@[simp] theorem raiseOutput_engine (c : Code) (s : State) : (raiseOutput c s).engine = .idle := rfl
@[simp] theorem raiseOutput_mem (c : Code) (s : State) : (raiseOutput c s).mem = memSettle s.mem s.dst.toNat s.cap.toNat s.draws [] := rfl
@[simp] theorem raiseOutput_draws (c : Code) (s : State) : (raiseOutput c s).draws = s.draws + 1 := rfl
@[simp] theorem raiseOutput_platform (c : Code) (s : State) : (raiseOutput c s).platform = s.platform := rfl
@[simp] theorem raiseOutput_inbox (c : Code) (s : State) : (raiseOutput c s).inbox = s.inbox := rfl

/-! `setCrc` -/

@[simp] theorem setCrc_cmd (v : Word) (s : State) : (setCrc v s).cmd = s.cmd := rfl
@[simp] theorem setCrc_src (v : Word) (s : State) : (setCrc v s).src = s.src := rfl
@[simp] theorem setCrc_len (v : Word) (s : State) : (setCrc v s).len = s.len := rfl
@[simp] theorem setCrc_dst (v : Word) (s : State) : (setCrc v s).dst = s.dst := rfl
@[simp] theorem setCrc_cap (v : Word) (s : State) : (setCrc v s).cap = s.cap := rfl
@[simp] theorem setCrc_result (v : Word) (s : State) : (setCrc v s).result = s.result := rfl
@[simp] theorem setCrc_status (v : Word) (s : State) : (setCrc v s).status = s.status := rfl
@[simp] theorem setCrc_crc (v : Word) (s : State) : (setCrc v s).crc = v := rfl
@[simp] theorem setCrc_tables (v : Word) (s : State) : (setCrc v s).tables = s.tables := rfl
@[simp] theorem setCrc_tablesReady (v : Word) (s : State) : (setCrc v s).tablesReady = s.tablesReady := rfl
@[simp] theorem setCrc_sel (v : Word) (s : State) : (setCrc v s).sel = s.sel := rfl
@[simp] theorem setCrc_hash (v : Word) (s : State) : (setCrc v s).hash = s.hash := rfl
@[simp] theorem setCrc_engine (v : Word) (s : State) : (setCrc v s).engine = s.engine := rfl
@[simp] theorem setCrc_mem (v : Word) (s : State) : (setCrc v s).mem = s.mem := rfl
@[simp] theorem setCrc_draws (v : Word) (s : State) : (setCrc v s).draws = s.draws := rfl
@[simp] theorem setCrc_platform (v : Word) (s : State) : (setCrc v s).platform = s.platform := rfl
@[simp] theorem setCrc_inbox (v : Word) (s : State) : (setCrc v s).inbox = s.inbox := rfl

/-! `setSel` -/

@[simp] theorem setSel_cmd (v : Sel) (s : State) : (setSel v s).cmd = s.cmd := rfl
@[simp] theorem setSel_src (v : Sel) (s : State) : (setSel v s).src = s.src := rfl
@[simp] theorem setSel_len (v : Sel) (s : State) : (setSel v s).len = s.len := rfl
@[simp] theorem setSel_dst (v : Sel) (s : State) : (setSel v s).dst = s.dst := rfl
@[simp] theorem setSel_cap (v : Sel) (s : State) : (setSel v s).cap = s.cap := rfl
@[simp] theorem setSel_result (v : Sel) (s : State) : (setSel v s).result = s.result := rfl
@[simp] theorem setSel_status (v : Sel) (s : State) : (setSel v s).status = s.status := rfl
@[simp] theorem setSel_crc (v : Sel) (s : State) : (setSel v s).crc = s.crc := rfl
@[simp] theorem setSel_tables (v : Sel) (s : State) : (setSel v s).tables = s.tables := rfl
@[simp] theorem setSel_tablesReady (v : Sel) (s : State) : (setSel v s).tablesReady = s.tablesReady := rfl
@[simp] theorem setSel_sel (v : Sel) (s : State) : (setSel v s).sel = v := rfl
@[simp] theorem setSel_hash (v : Sel) (s : State) : (setSel v s).hash = s.hash := rfl
@[simp] theorem setSel_engine (v : Sel) (s : State) : (setSel v s).engine = s.engine := rfl
@[simp] theorem setSel_mem (v : Sel) (s : State) : (setSel v s).mem = s.mem := rfl
@[simp] theorem setSel_draws (v : Sel) (s : State) : (setSel v s).draws = s.draws := rfl
@[simp] theorem setSel_platform (v : Sel) (s : State) : (setSel v s).platform = s.platform := rfl
@[simp] theorem setSel_inbox (v : Sel) (s : State) : (setSel v s).inbox = s.inbox := rfl

/-! `setHash` -/

@[simp] theorem setHash_cmd (h : Buckets) (s : State) : (setHash h s).cmd = s.cmd := rfl
@[simp] theorem setHash_src (h : Buckets) (s : State) : (setHash h s).src = s.src := rfl
@[simp] theorem setHash_len (h : Buckets) (s : State) : (setHash h s).len = s.len := rfl
@[simp] theorem setHash_dst (h : Buckets) (s : State) : (setHash h s).dst = s.dst := rfl
@[simp] theorem setHash_cap (h : Buckets) (s : State) : (setHash h s).cap = s.cap := rfl
@[simp] theorem setHash_result (h : Buckets) (s : State) : (setHash h s).result = s.result := rfl
@[simp] theorem setHash_status (h : Buckets) (s : State) : (setHash h s).status = s.status := rfl
@[simp] theorem setHash_crc (h : Buckets) (s : State) : (setHash h s).crc = s.crc := rfl
@[simp] theorem setHash_tables (h : Buckets) (s : State) : (setHash h s).tables = s.tables := rfl
@[simp] theorem setHash_tablesReady (h : Buckets) (s : State) : (setHash h s).tablesReady = s.tablesReady := rfl
@[simp] theorem setHash_sel (h : Buckets) (s : State) : (setHash h s).sel = s.sel := rfl
@[simp] theorem setHash_hash (h : Buckets) (s : State) : (setHash h s).hash = h := rfl
@[simp] theorem setHash_engine (h : Buckets) (s : State) : (setHash h s).engine = s.engine := rfl
@[simp] theorem setHash_mem (h : Buckets) (s : State) : (setHash h s).mem = s.mem := rfl
@[simp] theorem setHash_draws (h : Buckets) (s : State) : (setHash h s).draws = s.draws := rfl
@[simp] theorem setHash_platform (h : Buckets) (s : State) : (setHash h s).platform = s.platform := rfl
@[simp] theorem setHash_inbox (h : Buckets) (s : State) : (setHash h s).inbox = s.inbox := rfl

/-! `takeAction` -/

@[simp] theorem takeAction_cmd (r : List HostAction) (s : State) : (takeAction r s).cmd = s.cmd := rfl
@[simp] theorem takeAction_src (r : List HostAction) (s : State) : (takeAction r s).src = s.src := rfl
@[simp] theorem takeAction_len (r : List HostAction) (s : State) : (takeAction r s).len = s.len := rfl
@[simp] theorem takeAction_dst (r : List HostAction) (s : State) : (takeAction r s).dst = s.dst := rfl
@[simp] theorem takeAction_cap (r : List HostAction) (s : State) : (takeAction r s).cap = s.cap := rfl
@[simp] theorem takeAction_result (r : List HostAction) (s : State) : (takeAction r s).result = s.result := rfl
@[simp] theorem takeAction_status (r : List HostAction) (s : State) : (takeAction r s).status = s.status := rfl
@[simp] theorem takeAction_crc (r : List HostAction) (s : State) : (takeAction r s).crc = s.crc := rfl
@[simp] theorem takeAction_tables (r : List HostAction) (s : State) : (takeAction r s).tables = s.tables := rfl
@[simp] theorem takeAction_tablesReady (r : List HostAction) (s : State) : (takeAction r s).tablesReady = s.tablesReady := rfl
@[simp] theorem takeAction_sel (r : List HostAction) (s : State) : (takeAction r s).sel = s.sel := rfl
@[simp] theorem takeAction_hash (r : List HostAction) (s : State) : (takeAction r s).hash = s.hash := rfl
@[simp] theorem takeAction_engine (r : List HostAction) (s : State) : (takeAction r s).engine = s.engine := rfl
@[simp] theorem takeAction_mem (r : List HostAction) (s : State) : (takeAction r s).mem = s.mem := rfl
@[simp] theorem takeAction_draws (r : List HostAction) (s : State) : (takeAction r s).draws = s.draws := rfl
@[simp] theorem takeAction_platform (r : List HostAction) (s : State) : (takeAction r s).platform = s.platform := rfl
@[simp] theorem takeAction_inbox (r : List HostAction) (s : State) : (takeAction r s).inbox = r := rfl

/-! `skipToken` -/

@[simp] theorem skipToken_cmd (ip op : Nat) (s : State) : (skipToken ip op s).cmd = s.cmd := rfl
@[simp] theorem skipToken_src (ip op : Nat) (s : State) : (skipToken ip op s).src = s.src := rfl
@[simp] theorem skipToken_len (ip op : Nat) (s : State) : (skipToken ip op s).len = s.len := rfl
@[simp] theorem skipToken_dst (ip op : Nat) (s : State) : (skipToken ip op s).dst = s.dst := rfl
@[simp] theorem skipToken_cap (ip op : Nat) (s : State) : (skipToken ip op s).cap = s.cap := rfl
@[simp] theorem skipToken_result (ip op : Nat) (s : State) : (skipToken ip op s).result = s.result := rfl
@[simp] theorem skipToken_status (ip op : Nat) (s : State) : (skipToken ip op s).status = s.status := rfl
@[simp] theorem skipToken_crc (ip op : Nat) (s : State) : (skipToken ip op s).crc = s.crc := rfl
@[simp] theorem skipToken_tables (ip op : Nat) (s : State) : (skipToken ip op s).tables = s.tables := rfl
@[simp] theorem skipToken_tablesReady (ip op : Nat) (s : State) : (skipToken ip op s).tablesReady = s.tablesReady := rfl
@[simp] theorem skipToken_sel (ip op : Nat) (s : State) : (skipToken ip op s).sel = s.sel := rfl
@[simp] theorem skipToken_hash (ip op : Nat) (s : State) : (skipToken ip op s).hash = s.hash := rfl
@[simp] theorem skipToken_engine (ip op : Nat) (s : State) : (skipToken ip op s).engine = .decompressing (ip + 1) op := rfl
@[simp] theorem skipToken_mem (ip op : Nat) (s : State) : (skipToken ip op s).mem = s.mem := rfl
@[simp] theorem skipToken_draws (ip op : Nat) (s : State) : (skipToken ip op s).draws = s.draws := rfl
@[simp] theorem skipToken_platform (ip op : Nat) (s : State) : (skipToken ip op s).platform = s.platform := rfl
@[simp] theorem skipToken_inbox (ip op : Nat) (s : State) : (skipToken ip op s).inbox = s.inbox := rfl

/-! `ensureTables` changes the tables and their flag only. -/

@[simp] theorem ensureTables_cmd (s : State) : (ensureTables s).cmd = s.cmd := by unfold ensureTables; split <;> rfl
@[simp] theorem ensureTables_src (s : State) : (ensureTables s).src = s.src := by unfold ensureTables; split <;> rfl
@[simp] theorem ensureTables_len (s : State) : (ensureTables s).len = s.len := by unfold ensureTables; split <;> rfl
@[simp] theorem ensureTables_dst (s : State) : (ensureTables s).dst = s.dst := by unfold ensureTables; split <;> rfl
@[simp] theorem ensureTables_cap (s : State) : (ensureTables s).cap = s.cap := by unfold ensureTables; split <;> rfl
@[simp] theorem ensureTables_result (s : State) : (ensureTables s).result = s.result := by unfold ensureTables; split <;> rfl
@[simp] theorem ensureTables_status (s : State) : (ensureTables s).status = s.status := by unfold ensureTables; split <;> rfl
@[simp] theorem ensureTables_crc (s : State) : (ensureTables s).crc = s.crc := by unfold ensureTables; split <;> rfl
@[simp] theorem ensureTables_sel (s : State) : (ensureTables s).sel = s.sel := by unfold ensureTables; split <;> rfl
@[simp] theorem ensureTables_hash (s : State) : (ensureTables s).hash = s.hash := by unfold ensureTables; split <;> rfl
@[simp] theorem ensureTables_engine (s : State) : (ensureTables s).engine = s.engine := by unfold ensureTables; split <;> rfl
@[simp] theorem ensureTables_mem (s : State) : (ensureTables s).mem = s.mem := by unfold ensureTables; split <;> rfl
@[simp] theorem ensureTables_draws (s : State) : (ensureTables s).draws = s.draws := by unfold ensureTables; split <;> rfl
@[simp] theorem ensureTables_platform (s : State) : (ensureTables s).platform = s.platform := by unfold ensureTables; split <;> rfl
@[simp] theorem ensureTables_inbox (s : State) : (ensureTables s).inbox = s.inbox := by unfold ensureTables; split <;> rfl

@[simp] theorem ensureTables_tablesReady (s : State) : (ensureTables s).tablesReady = true := by
  unfold ensureTables; split <;> simp_all

theorem ensureTables_tables {s : State} (h : TablesBuilt s) : (ensureTables s).tables = crcTables := by
  unfold ensureTables; split
  · exact h ‹_›
  · rfl

/-! The values after reset (R39), and after the reset event (R170). -/

@[simp] theorem State.reset_cmd : State.reset.cmd = 0 := rfl
@[simp] theorem State.reset_src : State.reset.src = 0 := rfl
@[simp] theorem State.reset_len : State.reset.len = 0 := rfl
@[simp] theorem State.reset_dst : State.reset.dst = 0 := rfl
@[simp] theorem State.reset_cap : State.reset.cap = 0 := rfl
@[simp] theorem State.reset_result : State.reset.result = 0 := rfl
@[simp] theorem State.reset_status : State.reset.status = 0 := rfl
@[simp] theorem State.reset_crc : State.reset.crc = 0 := rfl
@[simp] theorem State.reset_tables : State.reset.tables = unbuiltTables := rfl
@[simp] theorem State.reset_tablesReady : State.reset.tablesReady = false := rfl
@[simp] theorem State.reset_sel : State.reset.sel = .unset := rfl
@[simp] theorem State.reset_hash : State.reset.hash = [] := rfl
@[simp] theorem State.reset_engine : State.reset.engine = .idle := rfl
@[simp] theorem State.reset_mem : State.reset.mem = ⟨[], []⟩ := rfl
@[simp] theorem State.reset_draws : State.reset.draws = 0 := rfl
@[simp] theorem State.reset_platform : State.reset.platform = Config.platform := rfl
@[simp] theorem State.reset_inbox : State.reset.inbox = [] := rfl
@[simp] theorem resetBlock_cmd (s : State) : (resetBlock s).cmd = 0 := rfl
@[simp] theorem resetBlock_src (s : State) : (resetBlock s).src = 0 := rfl
@[simp] theorem resetBlock_len (s : State) : (resetBlock s).len = 0 := rfl
@[simp] theorem resetBlock_dst (s : State) : (resetBlock s).dst = 0 := rfl
@[simp] theorem resetBlock_cap (s : State) : (resetBlock s).cap = 0 := rfl
@[simp] theorem resetBlock_result (s : State) : (resetBlock s).result = 0 := rfl
@[simp] theorem resetBlock_status (s : State) : (resetBlock s).status = 0 := rfl
@[simp] theorem resetBlock_crc (s : State) : (resetBlock s).crc = 0 := rfl
@[simp] theorem resetBlock_tables (s : State) : (resetBlock s).tables = unbuiltTables := rfl
@[simp] theorem resetBlock_tablesReady (s : State) : (resetBlock s).tablesReady = false := rfl
@[simp] theorem resetBlock_sel (s : State) : (resetBlock s).sel = .unset := rfl
@[simp] theorem resetBlock_hash (s : State) : (resetBlock s).hash = [] := rfl
@[simp] theorem resetBlock_engine (s : State) : (resetBlock s).engine = .idle := rfl
@[simp] theorem resetBlock_mem (s : State) : (resetBlock s).mem = s.mem := rfl
@[simp] theorem resetBlock_draws (s : State) : (resetBlock s).draws = s.draws := rfl
@[simp] theorem resetBlock_platform (s : State) : (resetBlock s).platform = s.platform := rfl
@[simp] theorem resetBlock_inbox (s : State) : (resetBlock s).inbox = s.inbox := rfl

end Sys2Proof.Machine
end

