-- ==== Sys2Proof/Laws/Commands.lean ====
section
/-! SUPPORT. What each shared operation of the commands can do, said once. -/

namespace Sys2Proof.Machine

/-- The three ends of a checksum command (R101). -/
theorem crcFrame_cases (available : Bool) (body : State → State) (s : State) :
    (sourceOk s = false ∧ crcFrame available body s = raise .errBadRange s) ∨
    (sourceOk s = true ∧ available = false ∧ crcFrame available body s = raise .errUnavailable s) ∨
    (sourceOk s = true ∧ available = true ∧ crcFrame available body s =
      finishOk ((body (setCrc crcInit s)).crc ^^^ crcXorOut) (body (setCrc crcInit s))) := by
  cases h : sourceOk s <;> cases available <;> simp [crcFrame, h]

/-- Which strategy `CRC32C` runs (R100). -/
theorem bodySelected_cases (s : State) :
    (chooseSel s = .hw ∧ bodySelected s = bodyHw (setSel .hw s)) ∨
    (chooseSel s = .s16 ∧ bodySelected s = bodyS16 (setSel .s16 s)) := by
  unfold bodySelected
  cases h : chooseSel s
  · exfalso; revert h; unfold chooseSel; split
    · split <;> simp
    · simp
    · simp
  · simp
  · simp

/-- The two ends of a decompression (R130). -/
theorem endInflate_cases (r : Except Code (List Byte)) (s : State) :
    (∃ out, r = .ok out ∧ endInflate r s = finishOutput out s) ∨
    (∃ c, r = .error c ∧ endInflate r s = raiseOutput c s) := by
  cases r with
  | ok out => exact .inl ⟨out, rfl, rfl⟩
  | error c => exact .inr ⟨c, rfl, rfl⟩

/-- The ends of a compression (R120). -/
theorem endCompress_cases (out : List Byte) (s : State) :
    (out.length ≤ s.cap.toNat ∧ out.length < s.len.toNat ∧ endCompress out s = finishOutput out s) ∨
    (s.cap.toNat < out.length ∧ endCompress out s = raiseOutput .noneCapacity s) ∨
    (out.length ≤ s.cap.toNat ∧ s.len.toNat ≤ out.length ∧ endCompress out s = raiseOutput .noneNoGain s) := by
  unfold endCompress compressCode
  by_cases h1 : out.length > s.cap.toNat
  · simp [h1]
  · by_cases h2 : out.length ≥ s.len.toNat
    · simp [h1, h2]; omega
    · simp [h1, h2]; omega

@[simp] theorem copyMatch_length (offset n : Nat) (out : List Byte) :
    (copyMatch offset n out).length = out.length + n := by
  induction n generalizing out with
  | zero => rfl
  | succ k ih => rw [copyMatch, ih]; simp; omega

/-- A match appends: the output so far stays its front. -/
theorem copyMatch_prefix (offset n : Nat) (out : List Byte) : out <+: copyMatch offset n out := by
  induction n generalizing out with
  | zero => exact List.prefix_refl out
  | succ k ih => exact (List.prefix_append out _).trans (ih _)

/-- What a pass can do: each `more` keeps the output so far as its front and stays inside the capacity. -/
theorem streamPass_more {cap ll ml : Nat} {rest out rest' out' : List Byte} (hcap : out.length ≤ cap)
    (h : streamPass cap ll ml rest out = .more rest' out') : out <+: out' ∧ out'.length ≤ cap := by
  unfold streamPass at h
  split at h
  · cases h
  · split at h; · cases h
    split at h; · cases h
    split at h; · cases h
    unfold matchPass at h
    split at h
    · split at h; · cases h
      split at h; · cases h
      split at h; · cases h
      split at h; · cases h
      cases h
      refine ⟨(List.prefix_append _ _).trans (copyMatch_prefix _ _ _), ?_⟩
      simp only [copyMatch_length, List.length_append, List.length_take] at *
      omega
    · cases h

/-- The output with which the last pass ends the command fits the capacity. -/
theorem streamPass_done {cap ll ml : Nat} {rest out out' : List Byte} (hcap : out.length ≤ cap)
    (h : streamPass cap ll ml rest out = .done out') : out <+: out' ∧ out'.length ≤ cap := by
  unfold streamPass at h
  split at h
  · cases h
  · split at h; · cases h
    split at h; · cases h
    split at h
    · cases h
      refine ⟨List.prefix_append _ _, ?_⟩
      rw [List.length_append]
      omega
    · unfold matchPass at h
      split at h
      · split at h; · cases h
        split at h; · cases h
        split at h; · cases h
        split at h <;> cases h
      · cases h

theorem inflateLoop_length_le {cap : Nat} (n : Nat) {bs out out' : List Byte} (hcap : out.length ≤ cap)
    (h : inflateLoop cap n bs out = .ok out') : out'.length ≤ cap := by
  induction n generalizing bs out with
  | zero => cases h
  | succ n ih =>
    cases bs with
    | nil => cases h
    | cons token rest =>
      rw [inflateLoop] at h
      split at h
      · exact ih (streamPass_more hcap ‹_›).2 h
      · cases h; exact (streamPass_done hcap ‹_›).2
      · cases h

/-- Decoded data fits the capacity. -/
theorem inflate_length_le {cap : Nat} {bs out : List Byte} (h : inflate cap bs = .ok out) : out.length ≤ cap :=
  inflateLoop_length_le _ (by simp) h

/-- The two ends of `LZ4.DECOMPRESS`, and the refusal of its regions. -/
theorem execLz4Decompress_cases (s : State) :
    (rangeOk s = false ∧ execLz4Decompress s = .next (raise .errBadRange s)) ∨
    (rangeOk s = true ∧ ∃ out, out.length ≤ s.cap.toNat ∧ inflate s.cap.toNat (sourceBytes s) = .ok out ∧
      execLz4Decompress s = .next (finishOutput out s)) ∨
    (rangeOk s = true ∧ ∃ c, inflate s.cap.toNat (sourceBytes s) = .error c ∧
      execLz4Decompress s = .next (raiseOutput c s)) := by
  cases h : rangeOk s
  · simp [execLz4Decompress, h]
  · rcases endInflate_cases (inflate s.cap.toNat (sourceBytes s)) s with ⟨out, h1, h2⟩ | ⟨c, h1, h2⟩
    · refine .inr (.inl ⟨rfl, out, inflate_length_le h1, h1, ?_⟩)
      simp [execLz4Decompress, h, h2]
    · refine .inr (.inr ⟨rfl, c, h1, ?_⟩)
      simp [execLz4Decompress, h, h2]

/-- The ends of `LZ4.COMPRESS`, and the refusal of its regions. -/
theorem execLz4Compress_cases (s : State) :
    (rangeOk s = false ∧ execLz4Compress s = .next (raise .errBadRange s)) ∨
    (rangeOk s = true ∧ ∃ h, (deflate s.platform.hashMul (sourceBytes s)).length ≤ s.cap.toNat ∧
      (deflate s.platform.hashMul (sourceBytes s)).length < s.len.toNat ∧
      execLz4Compress s =
        .next (finishOutput (deflate s.platform.hashMul (sourceBytes s)) (setHash h s))) ∨
    (rangeOk s = true ∧ ∃ h, s.cap.toNat < (deflate s.platform.hashMul (sourceBytes s)).length ∧
      execLz4Compress s = .next (raiseOutput .noneCapacity (setHash h s))) ∨
    (rangeOk s = true ∧ ∃ h, (deflate s.platform.hashMul (sourceBytes s)).length ≤ s.cap.toNat ∧
      s.len.toNat ≤ (deflate s.platform.hashMul (sourceBytes s)).length ∧
      execLz4Compress s = .next (raiseOutput .noneNoGain (setHash h s))) := by
  cases h : rangeOk s
  · simp [execLz4Compress, h]
  · have key : execLz4Compress s = .next (endCompress (deflate s.platform.hashMul (sourceBytes s))
        (setHash (compressorEnd s.platform.hashMul (sourceBytes s)).hash s)) := by
      simp [execLz4Compress, h, deflate]
    rw [key]
    rcases endCompress_cases (deflate s.platform.hashMul (sourceBytes s))
        (setHash (compressorEnd s.platform.hashMul (sourceBytes s)).hash s) with ⟨h1, h2, h3⟩ | ⟨h1, h3⟩ | ⟨h1, h2, h3⟩
    · exact .inr (.inl ⟨rfl, _, h1, h2, by rw [h3]⟩)
    · exact .inr (.inr (.inl ⟨rfl, _, h1, by rw [h3]⟩))
    · exact .inr (.inr (.inr ⟨rfl, _, h1, h2, by rw [h3]⟩))

/-- The cursors an open stream has, and what the range check gives there. -/
theorem openStream_eq_some {s : State} {ip op : Nat} :
    openStream s = some (ip, op) ↔
      s.engine = .decompressing ip op ∧ rangeOk s = true ∧ ip ≤ s.len.toNat ∧ op ≤ s.cap.toNat := by
  unfold openStream
  cases h : s.engine with
  | idle => simp
  | compressing _ _ _ => simp
  | decompressing i o =>
    simp only [Bool.and_eq_true, decide_eq_true_eq, Option.ite_none_right_eq_some, Option.some.injEq, Prod.mk.injEq,
      Engine.decompressing.injEq]
    constructor
    · rintro ⟨⟨⟨h1, h2⟩, h3⟩, rfl, rfl⟩; exact ⟨⟨rfl, rfl⟩, h1, h2, h3⟩
    · rintro ⟨⟨rfl, rfl⟩, h1, h2, h3⟩; exact ⟨⟨⟨h1, h2⟩, h3⟩, rfl, rfl⟩

/-- The ends of a token's pass. -/
theorem execLz4Token_cases (ll ml : Nat) (s : State) :
    (openStream s = none ∧ execLz4Token ll ml s = .refused .noStream) ∨
    (∃ ip op, openStream s = some (ip, op) ∧ execLz4Token ll ml s = .next (endPass op
      (streamPass s.cap.toNat ll ml ((sourceBytes s).drop ip) (memReadBytes s.mem s.dst.toNat op)) s)) := by
  unfold execLz4Token
  cases h : openStream s with
  | none => exact .inl ⟨rfl, rfl⟩
  | some p => exact .inr ⟨p.1, p.2, rfl, rfl⟩

/-- What the host's next action does, one case per action. -/
theorem hostStep_cases (s : State) :
    (s.inbox = [] ∧ hostStep s = .next s) ∨
    (∃ a rest, s.inbox = a :: rest ∧ hostStep s = hostAct a (takeAction rest s)) := by
  unfold hostStep
  cases h : s.inbox with
  | nil => exact .inl ⟨rfl, rfl⟩
  | cons a rest => exact .inr ⟨a, rest, rfl, rfl⟩

/-- A write to `CMD` runs a command, or ends with `ERR_ILLEGAL_OP`. -/
theorem commandWrite_cases (v : Byte) (s : State) :
    (∃ i, decodeCommand v = some i ∧ commandWrite v s = exec i { s with cmd := v }) ∨
    (decodeCommand v = none ∧ commandWrite v s = .next (raise .errIllegalOp { s with cmd := v })) := by
  cases h : decodeCommand v <;> simp [commandWrite, decode, h]

/-- A command code stands for one of the six commands. -/
theorem decodeCommand_mem {v : Byte} {i : Instr} (h : decodeCommand v = some i) : i ∈ allCommands := by
  unfold decodeCommand at h
  obtain ⟨row, hrow, rfl⟩ := Option.map_eq_some_iff.1 h
  have hmem := List.mem_of_find?_eq_some hrow
  simp only [commandTable, List.mem_cons, List.not_mem_nil, or_false] at hmem
  rcases hmem with rfl | rfl | rfl | rfl | rfl | rfl <;> simp [allCommands, checksumCommands, lz4Commands]

end Sys2Proof.Machine
end

