-- ==== Sys2Proof/Laws/PerInstr.lean ====
section
/-! SUPPORT. The families of statements about the instructions as syntax, one lemma per constructor. -/

namespace Sys2Proof.Laws

/-- Every instruction is one byte long: a command is the value written to `CMD` (R65), a token is one byte (R70). -/
def EncodesInOneByte.Statement (i : Instr) : Prop := (encode i).length = 1

theorem EncodesInOneByte.crc32c : EncodesInOneByte.Statement .crc32c := rfl
theorem EncodesInOneByte.crc32cHw : EncodesInOneByte.Statement .crc32cHw := rfl
theorem EncodesInOneByte.crc32cS16 : EncodesInOneByte.Statement .crc32cS16 := rfl
theorem EncodesInOneByte.crc32cBit : EncodesInOneByte.Statement .crc32cBit := rfl
theorem EncodesInOneByte.lz4Compress : EncodesInOneByte.Statement .lz4Compress := rfl
theorem EncodesInOneByte.lz4Decompress : EncodesInOneByte.Statement .lz4Decompress := rfl
theorem EncodesInOneByte.lz4Token (ll ml : Nat) : EncodesInOneByte.Statement (.lz4Token ll ml) := rfl

end Sys2Proof.Laws
end

