-- ==== Sys2Proof/Tests/Slice0.lean ====
section
/-! SUPPORT. Tests. Expected values are the spec's: its encoding tables (30_encoding.md R66, R70), its worked examples and the
vectors of 95_test_vectors.md. The theorems named `witness_…` show a state that meets the hypotheses of a statement. -/

namespace Sys2Proof.Tests

open Sys2Proof.Machine

/-! One theorem at a time: evaluated side by side, these take a thread and a stack each. -/

set_option Elab.async false

/-! Well-formedness: the two checks, and the largest nibbles. -/

theorem test_wellFormed_refuses_literal_nibble_16 : (Instr.lz4Token 16 0).wellFormed = false := by decide
theorem test_wellFormed_refuses_match_nibble_16 : (Instr.lz4Token 0 16).wellFormed = false := by decide
theorem test_wellFormed_accepts_nibbles_15 : (Instr.lz4Token 15 15).wellFormed = true := by decide

/-! Decoding: the words of R66, and token bytes of R70 and of 95_test_vectors.md section 3.2. -/

theorem test_decode_crc32c : decode .command [0b00000001#8] = .ok (.crc32c, []) := by rfl
theorem test_decode_crc32cHw : decode .command [0b00000010#8] = .ok (.crc32cHw, []) := by rfl
theorem test_decode_crc32cS16 : decode .command [0b00000011#8] = .ok (.crc32cS16, []) := by rfl
theorem test_decode_crc32cBit : decode .command [0b00000100#8] = .ok (.crc32cBit, []) := by rfl
theorem test_decode_lz4Compress : decode .command [0b00010000#8] = .ok (.lz4Compress, []) := by rfl
theorem test_decode_lz4Decompress : decode .command [0b00010001#8] = .ok (.lz4Decompress, []) := by rfl
theorem test_decode_token_48 : decode .stream [0b01001000#8] = .ok (.lz4Token 4 8, []) := by rfl
theorem test_decode_token_6D : decode .stream [0b01101101#8, 0x68#8] = .ok (.lz4Token 6 13, [0x68#8]) := by rfl
theorem test_decode_refuses_00 : decode .command [0x00#8] = .error (.illegalCode 0x00#8) := by rfl
theorem test_decode_refuses_12 : decode .command [0x12#8] = .error (.illegalCode 0x12#8) := by rfl
theorem test_decode_refuses_nothing : decode .stream [] = .error .nothingToRead := by rfl
theorem test_decodeTableWord :
    [0x01, 0x02, 0x03, 0x04, 0x10, 0x11, 0x00, 0xF3].map (decodeTableWord 8) =
      [some .crc32c, some .crc32cHw, some .crc32cS16, some .crc32cBit, some .lz4Compress, some .lz4Decompress,
       some (.lz4Token 0 0), some (.lz4Token 15 3)] := by decide

/-! Small states: the source at 0x2000, the destination at 0x3000. -/

/-- The state an outcome goes on with. -/
def after : Host.Outcome State Fault Refusal → State
  | .next t => t
  | _ => State.reset

/-- A block just after reset with its operand registers written, `bs` in its source region. -/
def ready (hw : Bool) (bs : List Byte) (cap : Nat) : State :=
  { State.reset with
    src := 0x2000, len := BitVec.ofNat 32 bs.length, dst := 0x3000, cap := BitVec.ofNat 32 cap
    mem := memWriteBytes State.reset.mem 0x2000 bs
    platform := { hwCrcAvailable := hw, hashMul := 0x9E3779B1#32, holes := [⟨0x5000, 0x1000⟩] } }

/-- What the host can see of an outcome: `STATUS`, `RESULT`, and the first `n` destination bytes. -/
def seen (o : Host.Outcome State Fault Refusal) (n : Nat) : Nat × Nat × List Nat :=
  ((hostRead .status (after o)).toNat, (hostRead .result (after o)).toNat, (memReadBytes (after o).mem 0x3000 n).map BitVec.toNat)

/-- "123456789" (95_test_vectors.md 1.1). -/
def digits : List Byte := [0x31, 0x32, 0x33, 0x34, 0x35, 0x36, 0x37, 0x38, 0x39]

/-- `00 01 .. 10` (program P5). -/
def ascending17 : List Byte := (List.range 17).map (BitVec.ofNat 8)

/-- "abcd" four times (vector LC7). -/
def abcd4 : List Byte := (List.replicate 4 [0x61, 0x62, 0x63, 0x64]).flatten

/-- Its compressed form (vector LC7). -/
def abcd4Stream : List Byte := [0x48, 0x61, 0x62, 0x63, 0x64, 0x04, 0x00, 0x00]

/-! The checksum commands (95_test_vectors.md 2.1, program P5). -/

theorem test_crc32c_selects_hw :
    let t := after (exec .crc32c (ready true digits 0))
    (t.status, t.result, t.sel, t.tablesReady) = (0x01, 0xE3069283, .hw, false) := by decide +kernel
theorem test_crc32c_selects_s16 :
    let t := after (exec .crc32c (ready false ascending17 0))
    (t.status, t.result, t.sel, t.tablesReady) = (0x01, 0x38435E17, .s16, true) := by decide +kernel
theorem test_crc32cHw : seen (exec .crc32cHw (ready true ascending17 0)) 0 = (0x01, 0x38435E17, []) := by decide +kernel
theorem test_crc32cHw_unavailable : seen (exec .crc32cHw (ready false digits 0)) 0 = (0x32, 0, []) := by decide +kernel
theorem test_crc32cS16_block : seen (exec .crc32cS16 (ready true (List.replicate 16 0) 0)) 0 = (0x01, 0x42709AEA, []) := by
  decide +kernel
theorem test_crc32cS16_hole :
    let t := after (exec .crc32cS16 { ready true [] 0 with src := 0x4FFD, len := 4 })
    (t.status, t.result, t.tablesReady) = (0x31, 0, false) := by decide +kernel
theorem test_crc32cBit : seen (exec .crc32cBit (ready false digits 0)) 0 = (0x01, 0xE3069283, []) := by decide +kernel
theorem test_crc32cBit_wraps :
    ((after (exec .crc32cBit { ready true [] 0 with src := 0xFFFFFFF0, len := 0x11 })).status,
     (after (exec .crc32cBit { ready true [] 0 with src := 0xFFFFFFFF, len := 0 })).status) = (0x31, 0x01) := by
  decide +kernel

/-! `LZ4.COMPRESS` (vectors LC7, LC15b, LC17). -/

theorem test_lz4Compress_LC7 :
    seen (exec .lz4Compress (ready true abcd4 16)) 8 = (0x01, 8, abcd4Stream.map BitVec.toNat) := by decide +kernel
theorem test_lz4Compress_LC17 :
    seen (exec .lz4Compress (ready true
      [0x61, 0x62, 0x63, 0x64, 0x58, 0x61, 0x62, 0x63, 0x64, 0x59, 0x61, 0x62, 0x63, 0x64] 64)) 13 =
    (0x01, 13, [0x50, 0x61, 0x62, 0x63, 0x64, 0x58, 0x05, 0x00, 0x10, 0x59, 0x05, 0x00, 0x00]) := by decide +kernel

/-! `LZ4.DECOMPRESS` (vectors LD7, LD8, LD6 and the check orders of section 4). -/

theorem test_lz4Decompress_LD8 :
    seen (exec .lz4Decompress (ready true
      [0x20, 0x61, 0x62, 0x02, 0x00, 0x20, 0x63, 0x64, 0x04, 0x00, 0x10, 0x65] 20)) 13 =
    (0x01, 13, [0x61, 0x62, 0x61, 0x62, 0x61, 0x62, 0x63, 0x64, 0x61, 0x62, 0x63, 0x64, 0x65]) := by decide +kernel
theorem test_lz4Decompress_failures :
    [seen (exec .lz4Decompress (ready true [0x1F, 0x61, 0x00, 0x00] 100)) 0,
     seen (exec .lz4Decompress (ready true [0x13, 0x61, 0x05, 0x00, 0x00] 2)) 0,
     seen (exec .lz4Decompress (ready true abcd4Stream 15)) 0] = [(0x20, 0, []), (0x22, 0, []), (0x21, 0, [])] := by
  decide +kernel

/-! `LZ4.TOKEN`: the first pass of vector LD7, and a token outside a stream. -/

/-- The block in the middle of `LZ4.DECOMPRESS` with `ip` bytes read and nothing produced. -/
def reading (bs : List Byte) (cap ip : Nat) : State := { ready true bs cap with engine := .decompressing ip 0 }

theorem test_lz4Token_LD7 :
    let o := exec (.lz4Token 4 8) (reading abcd4Stream 16 1)
    ((after o).engine, seen o 16) = (.decompressing 7 16, 0, 0, abcd4.map BitVec.toNat) := by decide +kernel
theorem test_lz4Token_refused : exec (.lz4Token 4 8) (ready true abcd4Stream 16) = .refused .noStream := by rfl

/-! The host's side: program P4's illegal code, a word placed for the next step. -/

theorem test_illegal_code :
    let t := after (step { ready true [] 0 with inbox := [.writeCmd 0x12] })
    (t.cmd, t.status, t.result, t.inbox) = (0x12, 0x30, 0, []) := by decide +kernel
theorem test_withFetchWord :
    [0x01, 0x03, 0x04, 0x10, 0x11, 0x00, 0x53].map
      (fun w => (after (step (State.reset.withFetchWord 8 w))).status.toNat) =
    [0x01, 0x01, 0x01, 0x10, 0x20, 0x01, 0x20] := by decide +kernel

/-! Witnesses. -/

theorem witness_DecodeOfEncodeIsTheInstruction :
    (Instr.lz4Token 15 15).wellFormed = true ∧ (Instr.lz4Token 0 0).wellFormed = true ∧
      Instr.crc32c.wellFormed = true := by decide
theorem witness_EncodeOfDecodeIsTheBytes :
    decode .stream [0xFF#8, 0x01#8] = .ok (.lz4Token 15 15, [0x01#8]) ∧ decode .command [0x11#8] = .ok (.lz4Decompress, []) :=
  ⟨rfl, rfl⟩

/-- A block whose host is about to do one thing. -/
def about (a : HostAction) : State := { ready true digits 0 with inbox := [a] }

theorem witness_StepRunsTheDecodedCommand :
    (about (.writeCmd 0x11)).engine = .idle ∧ (about (.writeCmd 0x11)).inbox = .writeCmd 0x11 :: [] ∧
      decode .command [0x11#8] = .ok (.lz4Decompress, []) := ⟨rfl, rfl, rfl⟩
theorem witness_StepRunsTheDecodedToken :
    (reading [0x05] 0 0).engine = .decompressing 0 0 ∧ rangeOk (reading [0x05] 0 0) = true ∧
      0 < (reading [0x05] 0 0).len.toNat ∧ 0 ≤ (reading [0x05] 0 0).cap.toNat := ⟨rfl, by decide, by decide, by decide⟩
theorem witness_IllegalCodeEndsWithErrIllegalOp :
    ∀ v : Byte, v ∈ [0x00, 0x05, 0x0F, 0x12, 0xFF] →
      (about (.writeCmd v)).engine = .idle ∧ (about (.writeCmd v)).inbox = .writeCmd v :: [] ∧
      (v.toNat = 0x00 ∨ (0x05 ≤ v.toNat ∧ v.toNat ≤ 0x0F) ∨ (0x12 ≤ v.toNat ∧ v.toNat ≤ 0xFF)) := by
  intro v hv; exact ⟨rfl, rfl, by revert v; decide⟩
theorem witness_HostRegisterAccesses :
    ∀ a ∈ [HostAction.writeSrc 0xFFFFFFFF, .writeLen 1, .writeDst 2, .writeCap 3, .writeResult 4, .writeStatus 5,
      .readReg .status], (about a).engine = .idle ∧ (about a).inbox = a :: [] := fun _ _ => ⟨rfl, rfl⟩
theorem witness_HostStoreIsSeen :
    (about (.writeMem 0xFFFFFFFF 7)).engine = .idle ∧
      (about (.writeMem 0xFFFFFFFF 7)).inbox = .writeMem 0xFFFFFFFF 7 :: [] ∧
      memValid (about (.writeMem 0xFFFFFFFF 7)).platform (0xFFFFFFFF : Word).toNat = true := ⟨rfl, rfl, by decide⟩
theorem witness_ResetEventSetsTheResetValues :
    (about .reset).engine = .idle ∧ (about .reset).inbox = .reset :: [] := ⟨rfl, rfl⟩
theorem witness_IdleBlockWaits : State.reset.engine = .idle ∧ State.reset.inbox = [] := ⟨rfl, rfl⟩

/-- The bad regions of R47: source past the end of the address space by one byte, source into a hole by one byte, and for
`LZ4.COMPRESS` the same of the destination, and regions that share one byte (95_test_vectors.md 2.5, 3.4). -/
theorem witness_BadRange_bad :
    Instr.lz4Compress ∈ allCommands ∧ Instr.lz4Compress ∈ lz4Commands ∧
    (0xFFFFFFF0 : Word).toNat + (0x11 : Word).toNat > 2 ^ 32 ∧
    (inRegion 0x4FFD 4 0x5000 ∧ memValid (ready true [] 0).platform 0x5000 = false) ∧
    ((0x2000 : Nat) < 0x1FF8 + 9 ∧ (0x1FF8 : Nat) < 0x2000 + 16) := by decide
/-- Regions that just pass: to the last address, up to a hole, and side by side. -/
theorem witness_BadRange_good :
    sourceOk { ready true [] 0 with src := 0xFFFFFFF0, len := 0x10 } = true ∧
    sourceOk { ready true [] 0 with src := 0x4FFC, len := 4 } = true ∧
    rangeOk { ready true [] 0 with src := 0x2000, len := 16, dst := 0x2010, cap := 16 } = true ∧
    rangeOk { ready true [] 0 with src := 0x2000, len := 0, dst := 0x2000, cap := 16 } = true := by decide

theorem witness_TableContents : 14 < 15 ∧ 255 < 256 := by decide
theorem witness_BlockStepIsSixteenByteSteps : (List.replicate 16 (0xFF#8)).length = 16 := by decide
theorem witness_AnyMixtureOfStepsIsTheByteFold :
    ∀ k ∈ [List.replicate 8 (1#8), [2#8], List.replicate 16 (3#8)], k.length = 1 ∨ k.length = 8 ∨ k.length = 16 := by decide
theorem witness_CrcRawIsLinear : [0x31#8, 0x32#8].length = [0xFF#8, 0x00#8].length := rfl
theorem witness_Crc32cBitWritesTheChecksum : sourceOk (ready false digits 0) = true := by decide
theorem witness_Crc32cHwWritesTheChecksum :
    sourceOk (ready true digits 0) = true ∧ (ready true digits 0).platform.hwCrcAvailable = true := by decide

/-- A block whose tables are built. -/
def built (hw : Bool) (sel : Sel) : State :=
  { ready hw digits 0 with tables := crcTables, tablesReady := true, sel := sel }

theorem built_tablesBuilt (hw : Bool) (sel : Sel) : TablesBuilt (built hw sel) := fun _ => rfl

theorem witness_Crc32cS16WritesTheChecksum :
    sourceOk (built true .unset) = true ∧ TablesBuilt (built true .unset) ∧
      sourceOk (ready true digits 0) = true ∧ TablesBuilt (ready true digits 0) :=
  ⟨by decide, built_tablesBuilt _ _, by decide, (fun h => by cases h)⟩
/-- The two clauses of the statement, each for a cached and for a fresh selection. -/
theorem witness_Crc32cWritesTheChecksum :
    sourceOk (built false .hw) = true ∧ TablesBuilt (built false .hw) ∧ (built false .hw).sel = .hw ∧
    (built true .unset).sel = .unset ∧ (built true .unset).platform.hwCrcAvailable = true ∧
    (built true .s16).sel = .s16 ∧
    (built false .unset).sel = .unset ∧ (built false .unset).platform.hwCrcAvailable = false :=
  ⟨by decide, built_tablesBuilt _ _, rfl, rfl, rfl, rfl, rfl, rfl⟩
theorem witness_HwCommandIsRefusedWhereUnavailable :
    sourceOk (ready false digits 0) = true ∧ (ready false digits 0).platform.hwCrcAvailable = false := by decide
theorem witness_StrategiesAgree :
    Instr.crc32cHw ∈ checksumCommands ∧ Instr.crc32cS16 ∈ checksumCommands ∧
    TablesBuilt (ready true digits 0) ∧ TablesBuilt (built false .s16) ∧
    sourceOk (ready true digits 0) = true ∧ sourceOk (built false .s16) = true ∧
    (ready true digits 0).platform.hwCrcAvailable = true ∧
    sourceBytes (ready true digits 0) = sourceBytes (built false .s16) :=
  ⟨by decide, by decide, (fun h => by cases h), built_tablesBuilt _ _, by decide, by decide, rfl, rfl⟩
theorem witness_ChecksumCommandsFrame :
    Instr.crc32cBit ∈ checksumCommands ∧ ∃ t, exec .crc32cBit (ready true digits 0) = .next t := ⟨by decide, _, rfl⟩
theorem witness_LengthCodingIsOneToOne :
    readLen 15 [0xFF#8, 0x00#8, 0x07#8] = some (270, [0x07#8]) ∧ readLen 14 [0x07#8] = some (14, [0x07#8]) := by decide
theorem witness_LiteralOnlyStreamSize :
    (∃ t, exec .lz4Compress (ready true digits 64) = .next t) ∧
    (compressorEnd (ready true digits 64).platform.hashMul (sourceBytes (ready true digits 64))).out = [] :=
  ⟨⟨_, rfl⟩, by decide +kernel⟩
theorem witness_MatchCopyRepeatsTheLastBytes :
    1 ≤ 2 ∧ 2 ≤ [0x61#8, 0x62#8].length ∧ 1 < [0x61#8, 0x62#8].length ∧ 4 < 5 := by decide

/-- A sequence of four literals and a match of length 12, as in vector LD7. -/
def abcdSequence : Sequence := { lits := [0x61, 0x62, 0x63, 0x64], offset := 4, mlen := 12 }

theorem witness_TokenCopiesItsSequence :
    (reading abcd4Stream 16 1).engine = .decompressing 1 0 ∧ rangeOk (reading abcd4Stream 16 1) = true ∧
    1 ≤ (reading abcd4Stream 16 1).len.toNat ∧ 0 ≤ (reading abcd4Stream 16 1).cap.toNat ∧
    (sourceBytes (reading abcd4Stream 16 1)).drop 1 = writeExt abcdSequence.lits.length ++ abcdSequence.lits ++
      [BitVec.ofNat 8 abcdSequence.offset, BitVec.ofNat 8 (abcdSequence.offset / 256)] ++
      writeExt (abcdSequence.mlen - 4) ++ [0x00] ∧
    4 ≤ abcdSequence.mlen ∧ 1 ≤ abcdSequence.offset ∧ abcdSequence.offset ≤ 65535 ∧
    abcdSequence.offset ≤ 0 + abcdSequence.lits.length ∧
    0 + abcdSequence.lits.length + abcdSequence.mlen ≤ (reading abcd4Stream 16 1).cap.toNat :=
  ⟨rfl, by decide, by decide, by decide, by decide +kernel, by decide, by decide, by decide, by decide, by decide⟩
theorem witness_LastTokenEndsTheCommand :
    (reading [0x13, 0x61] 1 1).engine = .decompressing 1 0 ∧ rangeOk (reading [0x13, 0x61] 1 1) = true ∧
    1 ≤ (reading [0x13, 0x61] 1 1).len.toNat ∧ 0 ≤ (reading [0x13, 0x61] 1 1).cap.toNat ∧
    (sourceBytes (reading [0x13, 0x61] 1 1)).drop 1 = writeExt [0x61#8].length ++ [0x61#8] ∧
    0 + [0x61#8].length ≤ (reading [0x13, 0x61] 1 1).cap.toNat :=
  ⟨rfl, by decide, by decide, by decide, by decide +kernel, by decide⟩

/-- One state for each clause, at the boundary of its range: the stream ends in the literal extension; one literal too few; one
literal too many for the capacity; one offset byte; the stream ends in the match extension; offset 0, and an offset one
beyond the output; a match one byte too long. -/
theorem witness_TokenReportsTheFirstFault :
    rangeOk (reading [0x1F, 0x61, 0x01, 0x00] 8 1) = true ∧
    readLen 15 ((sourceBytes (reading [0xF0, 0xFF] 20 1)).drop 1) = none ∧
    readLen 4 ((sourceBytes (reading [0x40, 0x61, 0x62, 0x63] 4 1)).drop 1) = some (4, [0x61, 0x62, 0x63]) ∧
    readLen 1 ((sourceBytes (reading [0x10, 0x61] 0 1)).drop 1) = some (1, [0x61]) ∧
    readLen 1 ((sourceBytes (reading [0x13, 0x61, 0x01] 8 1)).drop 1) = some (1, [0x61, 0x01]) ∧
    readLen 1 ((sourceBytes (reading [0x1F, 0x61, 0x01, 0x00] 8 1)).drop 1) = some (1, 0x61 :: 0x01 :: 0x00 :: []) ∧
    readLen 15 [] = none ∧
    readLen 1 ((sourceBytes (reading [0x13, 0x61, 0x00, 0x00, 0x00] 8 1)).drop 1) = some (1, [0x61, 0x00, 0x00, 0x00]) ∧
    readLen 1 ((sourceBytes (reading [0x13, 0x61, 0x02, 0x00, 0x00] 8 1)).drop 1) = some (1, [0x61, 0x02, 0x00, 0x00]) ∧
    readLen 1 ((sourceBytes (reading [0x13, 0x61, 0x01, 0x00, 0x00] 7 1)).drop 1) = some (1, [0x61, 0x01, 0x00, 0x00]) ∧
    readLen 3 [0x00#8] = some (3, [0x00]) := by decide +kernel
theorem witness_TokenFrame :
    (reading abcd4Stream 16 1).engine = .decompressing 1 0 ∧
    ∃ t, exec (.lz4Token 4 8) (reading abcd4Stream 16 1) = .next t ∧ t.engine = .decompressing 7 16 :=
  ⟨rfl, after (exec (.lz4Token 4 8) (reading abcd4Stream 16 1)), rfl, by decide +kernel⟩
theorem witness_TokenOutsideAStreamIsRefused : ∀ ip op, State.reset.engine ≠ .decompressing ip op := by
  intro _ _ h; cases h

/-- The stream of vector LC7. -/
def abcd4Parsed : Stream := { body := [abcdSequence], tail := [], tailML := 0 }

theorem witness_Denotes : Denotes abcd4Stream abcd4 :=
  ⟨abcd4Parsed, by simp [abcd4Parsed, abcdSequence, bodyValid, minMatch, maxOffset], by decide, by decide +kernel, by decide +kernel⟩
theorem witness_StreamsHaveOneMeaning : Denotes abcd4Stream abcd4 ∧ Denotes abcd4Stream abcd4 :=
  ⟨witness_Denotes, witness_Denotes⟩
theorem witness_DecompressWritesTheDecodedBytes :
    rangeOk (ready true abcd4Stream 16) = true ∧ Denotes (sourceBytes (ready true abcd4Stream 16)) abcd4 ∧
      abcd4.length ≤ (ready true abcd4Stream 16).cap.toNat :=
  ⟨by decide, (by decide +kernel : sourceBytes (ready true abcd4Stream 16) = abcd4Stream) ▸ witness_Denotes, by decide⟩
/-- A stream that fits, the same with one byte too little room, and bytes that are no stream. -/
theorem witness_DecompressOkExactlyOnValidStreams :
    rangeOk (ready true abcd4Stream 16) = true ∧ rangeOk (ready true abcd4Stream 15) = true ∧
    Denotes (sourceBytes (ready true abcd4Stream 15)) abcd4 ∧ (ready true abcd4Stream 15).cap.toNat < abcd4.length ∧
    rangeOk (ready true [] 4) = true ∧ (¬ ∃ d, Denotes (sourceBytes (ready true [] 4)) d) :=
  ⟨by decide, by decide, (by decide +kernel : sourceBytes (ready true abcd4Stream 15) = abcd4Stream) ▸ witness_Denotes,
    by decide, by decide, by
      rintro ⟨d, st, -, -, h, -⟩
      have h2 : sourceBytes (ready true [] 4) = [] := rfl
      rw [h2, streamBytes, lastSeq, List.append_eq_nil_iff] at h
      exact absurd h.2 (by simp)⟩
theorem witness_DecompressIsItsTokenPasses : rangeOk (ready true abcd4Stream 16) = true := by decide
theorem witness_CompressIsItsIterations : rangeOk (ready true abcd4 16) = true := by decide
theorem witness_MatchesAreMaximal :
    0 < 4 ∧ 4 + 4 ≤ abcd4.length ∧ ∀ k < 4, byteAt abcd4 (0 + k) = byteAt abcd4 (4 + k) := by decide
/-- The three clauses at their boundaries: one byte of room too little, an output as long as the input, and an output that just
fits (vectors LC5f, LC3, LC5g). -/
theorem witness_CompressOutcomeDecision :
    (let s := ready true (List.replicate 20 0) 5
     rangeOk s = true ∧ (deflate s.platform.hashMul (sourceBytes s)).length = s.cap.toNat + 1) ∧
    (let s := ready true (List.replicate 5 0x61) 5
     rangeOk s = true ∧ (deflate s.platform.hashMul (sourceBytes s)).length = s.cap.toNat ∧
      (deflate s.platform.hashMul (sourceBytes s)).length = s.len.toNat) ∧
    (let s := ready true (List.replicate 6 0x61) 5
     rangeOk s = true ∧ (deflate s.platform.hashMul (sourceBytes s)).length = s.cap.toNat ∧
      (deflate s.platform.hashMul (sourceBytes s)).length + 1 = s.len.toNat) := by decide +kernel
theorem witness_CompressedDataRoundTrips :
    let s := ready true abcd4 16
    let t := after (exec .lz4Compress s)
    let u := ready true abcd4Stream 16
    rangeOk s = true ∧ exec .lz4Compress s = .next t ∧ t.status = 0x01#8 ∧ rangeOk u = true ∧
      sourceBytes u = memReadBytes t.mem s.dst.toNat t.result.toNat ∧ s.len.toNat ≤ u.cap.toNat :=
  ⟨by decide, rfl, by decide +kernel, by decide, by decide +kernel, by decide⟩
/-- An input of the least size that compresses (vector LC5g). -/
theorem witness_CompressOkNeedsSixBytes :
    let s := ready true (List.replicate 6 0x61) 5
    rangeOk s = true ∧ exec .lz4Compress s = .next (after (exec .lz4Compress s)) ∧
      (after (exec .lz4Compress s)).status = 0x01#8 := ⟨by decide, rfl, by decide +kernel⟩
theorem witness_Lz4CommandsFrame :
    Instr.lz4Decompress ∈ lz4Commands ∧ (∃ t, exec .lz4Decompress (ready true abcd4Stream 16) = .next t) ∧
    ∃ t, exec .lz4Compress { ready true abcd4 16 with dst := 0x200F } = .next t ∧ t.status = 0x31#8 :=
  ⟨by decide, ⟨_, rfl⟩, _, rfl, by decide +kernel⟩
/-- A refused command and a command that fails after its range check. -/
theorem witness_FailureLeavesTheRestAsItWas :
    Instr.lz4Decompress ∈ allCommands ∧
    (∃ t, exec .lz4Decompress (ready true abcd4Stream 15) = .next t ∧ t.status ≠ 0x01#8) ∧
    ∃ t, exec .crc32cHw (ready false digits 0) = .next t ∧ t.status ∉ [0x01#8, 0x10#8, 0x11#8, 0x20#8, 0x21#8, 0x22#8] :=
  ⟨by decide, ⟨_, rfl, by decide +kernel⟩, _, rfl, by decide +kernel⟩
theorem witness_FailureLeavesTheLazyState :
    Instr.crc32cHw ∈ allCommands ∧ ∃ t, exec .crc32cHw (built false .s16) = .next t ∧ t.status ≠ 0x01#8 :=
  ⟨by decide, _, rfl, by decide +kernel⟩
theorem witness_SourceRegionIsNeverWritten :
    Instr.lz4Compress ∈ allCommands ∧ ∃ t, exec .lz4Compress (ready true abcd4 16) = .next t := ⟨by decide, _, rfl⟩
/-- Two states with the same operands and source whose lazy state and other memory differ. -/
theorem witness_ResultDependsOnOperandsAndSourceOnly :
    let s := ready false digits 8
    let t := { built false .s16 with cap := 8, status := 0x22, mem := memWrite s.mem 0x3000 0xAA }
    Instr.crc32c ∈ allCommands ∧ TablesBuilt s ∧ TablesBuilt t ∧ s.src = t.src ∧ s.len = t.len ∧ s.dst = t.dst ∧
      s.cap = t.cap ∧ s.platform = t.platform ∧ sourceBytes s = sourceBytes t :=
  ⟨by decide, (fun h => by cases h), fun _ => rfl, rfl, rfl, rfl, rfl, rfl, by decide +kernel⟩
theorem witness_EveryStepKeepsTheParameters :
    ∃ t, step { State.reset with inbox := [.writeCmd 0x03] } = .next t ∧ t.inbox = [] := ⟨_, rfl, by decide +kernel⟩
theorem witness_EveryStepKeepsTheInvariant :
    BlockInv State.reset ∧ BlockInv { State.reset with inbox := [.writeCmd 0x03] } ∧
    ∃ t, step { State.reset with inbox := [.writeCmd 0x03] } = .next t ∧ t.tablesReady = true :=
  ⟨⟨rfl, by decide, by decide, fun _ => rfl, (fun h => by cases h), ⟨(fun h => by cases h), (fun h => by cases h)⟩⟩,
   ⟨rfl, by decide, by decide, fun _ => rfl, (fun h => by cases h), ⟨(fun h => by cases h), (fun h => by cases h)⟩⟩,
   after (step { State.reset with inbox := [.writeCmd 0x03] }), rfl, by decide +kernel⟩

end Sys2Proof.Tests
end

/-! The CRC engine: a byte step, a table look-up, a slicing block and an 8-byte step are all runs of the bit step, which is
linear over XOR; so the three strategies are the byte fold of R93 (40_crc32c.md R91 to R99, R103). -/
section

namespace Sys2Proof.Machine

/-! The bit step. -/

theorem bitStep_xor (a b : Word) : bitStep (a ^^^ b) = bitStep a ^^^ bitStep b := by
  have htap (p q : Bool) : (if p ^^ q then crcPoly else 0) =
      (if p then crcPoly else 0) ^^^ (if q then crcPoly else 0) := by cases p <;> cases q <;> simp
  simp only [bitStep, BitVec.getLsbD_xor, BitVec.ushiftRight_xor_distrib, htap]
  ac_rfl

theorem bitSteps_xor (n : Nat) (a b : Word) : bitSteps n (a ^^^ b) = bitSteps n a ^^^ bitSteps n b := by
  induction n generalizing a b with
  | zero => rfl
  | succ n ih => rw [bitSteps, bitStep_xor, ih]; rfl

theorem bitSteps_add (m n : Nat) (c : Word) : bitSteps (m + n) c = bitSteps n (bitSteps m c) := by
  induction m generalizing c with
  | zero => simp [bitSteps]
  | succ m ih => rw [Nat.succ_add, bitSteps, ih]; rfl

/-- While the low bits are clear the polynomial does not enter: the steps only shift. -/
theorem bitSteps_of_low_bits_clear {n : Nat} {c : Word} (h : ∀ i < n, c.getLsbD i = false) :
    bitSteps n c = c >>> n := by
  induction n generalizing c with
  | zero => simp [bitSteps]
  | succ n ih =>
    have hstep : bitStep c = c >>> 1 := by rw [bitStep, h 0 (by omega)]; simp
    rw [bitSteps, hstep, ih fun i hi => by simpa [Nat.add_comm] using h (i + 1) (by omega),
      ← BitVec.shiftRight_add, Nat.add_comm]

/-- A byte that enters `n` bits up reaches the low end after `n` steps. -/
theorem bitSteps_byte_shiftLeft (b : Byte) {n : Nat} (h : n ≤ 24) (m : Nat) :
    bitSteps (n + m) (b.setWidth 32 <<< n) = bitSteps m (b.setWidth 32) := by
  have hshift : b.setWidth 32 <<< n >>> n = b.setWidth 32 := by
    ext i hi
    by_cases hb : i < 8
    · simp [show n + i < 32 by omega]
    · simp [show 8 ≤ i by omega]
  have hclear : ∀ i < n, (b.setWidth 32 <<< n).getLsbD i = false := fun i hi => by simp [hi]
  rw [bitSteps_add, bitSteps_of_low_bits_clear hclear, hshift]

/-- Eight steps of a register: its low byte is used up, and the rest moves down. -/
theorem bitSteps_eight (c : Word) : bitSteps 8 c = (c >>> 8) ^^^ bitSteps 8 ((wordByte c 0).setWidth 32) := by
  have hsplit : c = (c >>> 8 <<< 8) ^^^ (wordByte c 0).setWidth 32 := by
    refine BitVec.eq_of_getLsbD_eq fun i hi => ?_
    simp only [wordByte, BitVec.getLsbD_xor, BitVec.getLsbD_shiftLeft, BitVec.getLsbD_ushiftRight,
      BitVec.getLsbD_setWidth, BitVec.getLsbD_extractLsb']
    grind
  have hrest : bitSteps 8 (c >>> 8 <<< 8) = c >>> 8 := by
    rw [bitSteps_of_low_bits_clear fun i hi => by simp; omega]
    refine BitVec.eq_of_getLsbD_eq fun i hi => ?_
    simp only [BitVec.getLsbD_shiftLeft, BitVec.getLsbD_ushiftRight]
    grind
  conv_lhs => rw [hsplit, bitSteps_xor, hrest]

/-! Words and their bytes. -/

theorem le32_eq_xor (b0 b1 b2 b3 : Byte) :
    le32 b0 b1 b2 b3 =
      b0.setWidth 32 ^^^ (b1.setWidth 32 <<< 8) ^^^ (b2.setWidth 32 <<< 16) ^^^ (b3.setWidth 32 <<< 24) := by
  refine BitVec.eq_of_getLsbD_eq fun i hi => ?_
  simp only [le32, BitVec.getLsbD_xor, BitVec.getLsbD_or, BitVec.getLsbD_shiftLeft, BitVec.getLsbD_setWidth]
  grind

theorem le32_wordByte (w : Word) : le32 (wordByte w 0) (wordByte w 1) (wordByte w 2) (wordByte w 3) = w := by
  refine BitVec.eq_of_getLsbD_eq fun i hi => ?_
  simp only [le32, wordByte, BitVec.getLsbD_or, BitVec.getLsbD_shiftLeft, BitVec.getLsbD_setWidth,
    BitVec.getLsbD_extractLsb']
  grind

/-- Thirty-two and more steps of a word are steps of its bytes, each from where it enters. -/
theorem bitSteps_le32 (n : Nat) (b0 b1 b2 b3 : Byte) :
    bitSteps (n + 32) (le32 b0 b1 b2 b3) =
      bitSteps (n + 32) (b0.setWidth 32) ^^^ bitSteps (n + 24) (b1.setWidth 32) ^^^
        bitSteps (n + 16) (b2.setWidth 32) ^^^ bitSteps (n + 8) (b3.setWidth 32) := by
  rw [le32_eq_xor, bitSteps_xor, bitSteps_xor, bitSteps_xor,
    ← bitSteps_byte_shiftLeft b1 (show 8 ≤ 24 by omega), ← bitSteps_byte_shiftLeft b2 (show 16 ≤ 24 by omega),
    ← bitSteps_byte_shiftLeft b3 (show 24 ≤ 24 by omega)]
  simp only [Nat.add_comm, Nat.add_left_comm, Nat.reduceAdd]

/-! The byte fold. -/

@[simp] theorem crcRaw_nil (c : Word) : crcRaw c [] = c := rfl

@[simp] theorem crcRaw_cons (c : Word) (b : Byte) (bs : List Byte) : crcRaw c (b :: bs) = crcRaw (byteStep c b) bs := rfl

theorem crcRaw_append (c : Word) (xs ys : List Byte) : crcRaw c (xs ++ ys) = crcRaw (crcRaw c xs) ys :=
  List.foldl_append

/-- Four byte steps are thirty-two bit steps of the register with the word of the four bytes added (R97). -/
theorem crcRaw_le32 (c : Word) (b0 b1 b2 b3 : Byte) :
    crcRaw c [b0, b1, b2, b3] = bitSteps 32 (c ^^^ le32 b0 b1 b2 b3) := by
  rw [bitSteps_xor, bitSteps_le32 0]
  simp only [crcRaw_cons, crcRaw_nil, byteStep, bitSteps_xor, ← bitSteps_add]
  simp only [Nat.reduceAdd, BitVec.xor_assoc]

theorem crcRaw_word (c : Word) {bs : List Byte} (h : 4 ≤ bs.length) :
    crcRaw c bs = crcRaw (bitSteps 32 (c ^^^ le32At bs 0)) (bs.drop 4) := by
  match bs, h with
  | b0 :: b1 :: b2 :: b3 :: rest, _ => exact (crcRaw_append c [b0, b1, b2, b3] rest).trans (by rw [crcRaw_le32]; rfl)

theorem le32At_drop (bs : List Byte) (n i : Nat) : le32At (bs.drop n) i = le32At bs (n + i) := by
  simp [le32At, byteAt, Nat.add_assoc]

/-- The bit-at-a-time strategy is the byte fold (R94). -/
theorem crcBitwise_eq_crcRaw (c : Word) (bs : List Byte) : crcBitwise c bs = crcRaw c bs := by
  induction bs generalizing c with
  | nil => rfl
  | cons b rest ih => rw [crcBitwise, ih]; rfl

/-! The tables (R95) and the slicing-by-16 strategy (R97). -/

/-- Table `k` holds what `k + 1` byte steps make of a byte. -/
theorem tableEntry_eq_bitSteps (k i : Nat) : tableEntry k i = bitSteps (8 * (k + 1)) (BitVec.ofNat 32 i) := by
  induction k with
  | zero => rfl
  | succ k ih =>
    rw [tableEntry, BitVec.ofNat_toNat, ← bitSteps_eight, ih, ← bitSteps_add, Nat.mul_succ 8 (k + 1)]

theorem tableAt_crcTables {k i : Nat} (hk : k < 16) (hi : i < 256) :
    tableAt crcTables k i = bitSteps (8 * (k + 1)) (BitVec.ofNat 32 i) := by
  rw [← tableEntry_eq_bitSteps]
  simp [tableAt, crcTables, hk, hi]

theorem tableAt_crcTables_byte {k : Nat} (hk : k < 16) (b : Byte) :
    tableAt crcTables k b.toNat = bitSteps (8 * (k + 1)) (b.setWidth 32) := by
  rw [tableAt_crcTables hk b.isLt, BitVec.ofNat_toNat]

/-- The four look-ups of a word run it through its byte steps. -/
theorem slicePass_crcTables {k : Nat} (hk : k ≤ 12) (w : Word) :
    slicePass crcTables k w = bitSteps (8 * k + 32) w := by
  conv_rhs => rw [← le32_wordByte w, bitSteps_le32]
  rw [slicePass, tableAt_crcTables_byte (by omega), tableAt_crcTables_byte (by omega),
    tableAt_crcTables_byte (by omega), tableAt_crcTables_byte (by omega)]
  rfl

/-- R103 (b): a block step is sixteen byte steps. -/
theorem sliceBlock_crcTables (c : Word) {block : List Byte} (h : block.length = 16) :
    sliceBlock crcTables c block = crcRaw c block := by
  have hend : block.drop 16 = [] := by simp [h]
  rw [crcRaw_word c (by omega), crcRaw_word _ (by simp; omega), crcRaw_word _ (by simp; omega),
    crcRaw_word _ (by simp; omega)]
  simp only [List.drop_drop, le32At_drop, Nat.reduceAdd, hend, crcRaw_nil, bitSteps_xor, ← bitSteps_add]
  simp only [sliceBlock, slicePass_crcTables (Nat.le_refl 12), slicePass_crcTables (show 8 ≤ 12 by omega),
    slicePass_crcTables (show 4 ≤ 12 by omega), slicePass_crcTables (show 0 ≤ 12 by omega), bitSteps_xor]

/-- R103 (a): a tail step is a byte step. -/
theorem sliceTail_crcTables (c : Word) (b : Byte) : sliceTail crcTables c b = byteStep c b := by
  have hshift : (c ^^^ b.setWidth 32) >>> 8 = c >>> 8 := by ext i hi; simp
  rw [sliceTail, tableAt_crcTables_byte (by omega), byteStep, bitSteps_eight (c ^^^ _), hshift]

theorem sliceLoop_crcTables (n : Nat) (c : Word) {bs : List Byte} (h : 16 * n ≤ bs.length) :
    sliceLoop crcTables n c bs = crcRaw c bs := by
  induction n generalizing c bs with
  | zero => simp only [sliceLoop, crcRaw, funext fun c => funext (sliceTail_crcTables c)]
  | succ n ih =>
    rw [sliceLoop, sliceBlock_crcTables c (by simp; omega), ih _ (by simp; omega), ← crcRaw_append,
      List.take_append_drop]

theorem crcSlicing_crcTables (c : Word) (bs : List Byte) : crcSlicing crcTables c bs = crcRaw c bs :=
  sliceLoop_crcTables _ c (Nat.mul_div_le _ _)

/-! The 8-byte-at-a-time strategy (R98, R99). -/

/-- An `LE64` group is two `LE32` words, the first one low (R10). -/
theorem le64_eq_append (b0 b1 b2 b3 b4 b5 b6 b7 : Byte) :
    le64 b0 b1 b2 b3 b4 b5 b6 b7 = le32 b4 b5 b6 b7 ++ le32 b0 b1 b2 b3 := by
  refine BitVec.eq_of_getLsbD_eq fun i hi => ?_
  simp only [BitVec.getLsbD_append, le64, le32, BitVec.getLsbD_or, BitVec.getLsbD_shiftLeft, BitVec.getLsbD_setWidth]
  grind

theorem extractLsb'_le64 (b0 b1 b2 b3 b4 b5 b6 b7 : Byte) :
    [0, 1, 2, 3, 4, 5, 6, 7].map (fun k => (le64 b0 b1 b2 b3 b4 b5 b6 b7).extractLsb' (8 * k) 8) =
      [b0, b1, b2, b3, b4, b5, b6, b7] := by
  have low {k : Nat} (hk : 8 * k + 8 ≤ 32) :
      (le64 b0 b1 b2 b3 b4 b5 b6 b7).extractLsb' (8 * k) 8 = wordByte (le32 b0 b1 b2 b3) k := by
    rw [le64_eq_append, BitVec.extractLsb'_append_eq_of_add_le hk]; rfl
  have high (k : Nat) :
      (le64 b0 b1 b2 b3 b4 b5 b6 b7).extractLsb' (8 * (k + 4)) 8 = wordByte (le32 b4 b5 b6 b7) k := by
    rw [le64_eq_append, BitVec.extractLsb'_append_eq_of_le (by omega)]; rfl
  obtain ⟨h0, h1, h2, h3⟩ := wordByte_le32 b0 b1 b2 b3
  obtain ⟨h4, h5, h6, h7⟩ := wordByte_le32 b4 b5 b6 b7
  simp only [List.map_cons, List.map_nil, low (show 8 * 0 + 8 ≤ 32 by omega), low (show 8 * 1 + 8 ≤ 32 by omega),
    low (show 8 * 2 + 8 ≤ 32 by omega), low (show 8 * 3 + 8 ≤ 32 by omega), high 0, high 1, high 2, high 3,
    h0, h1, h2, h3, h4, h5, h6, h7]

/-- R98: an 8-byte step is eight byte steps. -/
theorem qwordStep_le64 (c : Word) (b0 b1 b2 b3 b4 b5 b6 b7 : Byte) :
    qwordStep c (le64 b0 b1 b2 b3 b4 b5 b6 b7) = crcRaw c [b0, b1, b2, b3, b4, b5, b6, b7] := by
  rw [crcRaw, ← extractLsb'_le64, List.foldl_map]
  rfl

theorem qwordLoop_eq_crcRaw (n : Nat) (c : Word) {bs : List Byte} (h : 8 * n ≤ bs.length) :
    qwordLoop n c bs = crcRaw c bs := by
  induction n generalizing c bs with
  | zero => rfl
  | succ n ih =>
    match bs, h with
    | b0 :: b1 :: b2 :: b3 :: b4 :: b5 :: b6 :: b7 :: rest, h =>
      have hq : qwordStep c (le64At (b0 :: b1 :: b2 :: b3 :: b4 :: b5 :: b6 :: b7 :: rest) 0) =
        crcRaw c [b0, b1, b2, b3, b4, b5, b6, b7] := qwordStep_le64 c b0 b1 b2 b3 b4 b5 b6 b7
      rw [qwordLoop, hq, ih _ (by simp at h ⊢; omega), ← crcRaw_append]
      rfl

theorem crcQwords_eq_crcRaw (c : Word) (bs : List Byte) : crcQwords c bs = crcRaw c bs :=
  qwordLoop_eq_crcRaw _ c (Nat.mul_div_le _ _)

end Sys2Proof.Machine
end

/-! The host's side: what a step of an idle block does with the first action of the list (10_state.md R21, R22). -/
section

namespace Sys2Proof.Machine

/-- A block between commands takes a host action or waits. -/
theorem step_of_idle {s : State} (h : s.engine = .idle) : step s = hostStep s := by
  simp only [step, h]

theorem step_of_action {s : State} {a : HostAction} {rest : List HostAction} (h : s.engine = .idle)
    (hin : s.inbox = a :: rest) : step s = hostAct a (takeAction rest s) := by
  rw [step_of_idle h, hostStep, hin]

/-- A store that is no fault goes to an address that exists, and changes memory only. -/
theorem hostAct_writeMem_next {s t : State} {a : Word} {b : Byte} (h : hostAct (.writeMem a b) s = .next t) :
    memValid s.platform a.toNat = true ∧ t = { s with mem := memWrite s.mem a.toNat b } := by
  simp only [hostAct] at h
  split at h <;> cases h
  exact ⟨‹_›, rfl⟩

/-- A load that is no fault reads an address that exists, and changes nothing. -/
theorem hostAct_readMem_next {s t : State} {a : Word} (h : hostAct (.readMem a) s = .next t) :
    memValid s.platform a.toNat = true ∧ t = s := by
  simp only [hostAct] at h
  split at h <;> cases h
  exact ⟨‹_›, rfl⟩

/-- The six commands, one case each. -/
theorem mem_allCommands {i : Instr} :
    i ∈ allCommands ↔ i = .crc32c ∨ i = .crc32cHw ∨ i = .crc32cS16 ∨ i = .crc32cBit ∨ i = .lz4Compress ∨
      i = .lz4Decompress := by
  simp [allCommands, checksumCommands, lz4Commands]

/-- A command has no field, so every one is well-formed (R65). -/
theorem wellFormed_of_mem_allCommands {i : Instr} (h : i ∈ allCommands) : i.wellFormed = true := by
  rcases mem_allCommands.1 h with rfl | rfl | rfl | rfl | rfl | rfl <;> rfl

theorem decode_command_singleton {v : Byte} {i : Instr} :
    decode .command [v] = .ok (i, []) ↔ decodeCommand v = some i := by
  cases h : decodeCommand v <;> simp [decode, h]

theorem commandWrite_of_decode {v : Byte} {i : Instr} (h : decode .command [v] = .ok (i, [])) (s : State) :
    commandWrite v s = exec i { s with cmd := v } := by
  simp only [commandWrite, h]

/-- Settles O5: the step takes the write off the list, and a write of a command code runs the command. -/
theorem stepRunsTheDecodedCommand : Obligations.StepRunsTheDecodedCommand := by
  unfold Obligations.StepRunsTheDecodedCommand
  intro s v rest i hidle hin hdec
  have hmem : i ∈ allCommands := decodeCommand_mem (decode_command_singleton.1 hdec)
  refine ⟨wellFormed_of_mem_allCommands hmem, ?_⟩
  rw [step_of_action hidle hin]
  exact commandWrite_of_decode hdec (takeAction rest s)

/-- Settles O8: each register access is the step of its own action. -/
theorem hostRegisterAccesses : Obligations.HostRegisterAccesses := by
  unfold Obligations.HostRegisterAccesses
  intro s rest v b r hidle
  refine ⟨?_, ?_, ?_, ?_, ?_, ?_, ?_⟩ <;> intro hin <;> rw [step_of_action hidle hin] <;> rfl

end Sys2Proof.Machine
end

/-! The invariant of a block between commands: every operation that ends or prepares a command keeps it, so every step does
(10_state.md R25, R26, R30, R32, R36, R39). -/
section

namespace Sys2Proof.Machine

/-! What each operation keeps. -/

/-- The invariant does not speak of the host's registers, the accumulator, the hash table, the draws and the inbox. -/
theorem BlockInv.of_unread_fields {s : State} (h : BlockInv s) {cmd : Byte} {src len dst cap crc : Word} {hash : Buckets}
    {draws : Nat} {inbox : List HostAction} :
    BlockInv { s with
      cmd := cmd, src := src, len := len, dst := dst, cap := cap, crc := crc, hash := hash, draws := draws,
      inbox := inbox } :=
  ⟨h.engineIdle, h.memoryCanonical, h.statusLegal, h.resultZeroUnlessOk, h.tablesBuilt, h.selConsistent⟩

theorem BlockInv.setCrc {s : State} (h : BlockInv s) (v : Word) : BlockInv (setCrc v s) := h.of_unread_fields

theorem BlockInv.setHash {s : State} (h : BlockInv s) (b : Buckets) : BlockInv (setHash b s) := h.of_unread_fields

theorem BlockInv.takeAction {s : State} (h : BlockInv s) (rest : List HostAction) : BlockInv (takeAction rest s) :=
  h.of_unread_fields

/-- Every outcome code is one of the values of `STATUS` (R26, R151). -/
theorem codeByte_mem_statusValues (c : Code) : codeByte c ∈ statusValues := by
  cases c <;> decide

theorem BlockInv.finishOk {s : State} (h : BlockInv s) (v : Word) : BlockInv (finishOk v s) :=
  ⟨h.engineIdle, h.memoryCanonical, codeByte_mem_statusValues .ok, fun hne => absurd rfl hne, h.tablesBuilt,
    h.selConsistent⟩

theorem BlockInv.raise {s : State} (h : BlockInv s) (c : Code) : BlockInv (raise c s) :=
  ⟨h.engineIdle, h.memoryCanonical, codeByte_mem_statusValues c, fun _ => rfl, h.tablesBuilt, h.selConsistent⟩

/-- A new memory in canonical form. -/
theorem BlockInv.of_mem {s : State} (h : BlockInv s) {m : Memory} (hm : m.wf) : BlockInv { s with mem := m } :=
  ⟨h.engineIdle, hm, h.statusLegal, h.resultZeroUnlessOk, h.tablesBuilt, h.selConsistent⟩

/-- Output that fits a destination region in range leaves canonical memory and no cursors. -/
theorem BlockInv.settleDst {s : State} (h : BlockInv s) (hr : rangeOk s = true) {out : List Byte}
    (hout : out.length ≤ s.cap.toNat) : BlockInv (settleDst out s) := by
  obtain ⟨-, ⟨hdst, -⟩, -⟩ := (rangeOk_iff s).1 hr
  exact ⟨rfl, memSettle_wf h.memoryCanonical hdst s.draws hout, h.statusLegal, h.resultZeroUnlessOk, h.tablesBuilt,
    h.selConsistent⟩

theorem BlockInv.finishOutput {s : State} (h : BlockInv s) (hr : rangeOk s = true) {out : List Byte}
    (hout : out.length ≤ s.cap.toNat) : BlockInv (finishOutput out s) :=
  (h.settleDst hr hout).finishOk _

theorem BlockInv.raiseOutput {s : State} (h : BlockInv s) (hr : rangeOk s = true) (c : Code) :
    BlockInv (raiseOutput c s) :=
  (h.settleDst hr (Nat.zero_le _)).raise c

/-! The checksum commands. -/

/-- Built tables hold what R95 says (R96). -/
theorem BlockInv.ensureTables {s : State} (h : BlockInv s) : BlockInv (ensureTables s) := by
  refine ⟨?_, ?_, ?_, ?_, fun _ => ensureTables_tables h.tablesBuilt, ?_⟩
  · simpa using h.engineIdle
  · simpa using h.memoryCanonical
  · simpa using h.statusLegal
  · simpa using h.resultZeroUnlessOk
  · simpa [SelConsistent] using h.selConsistent

theorem BlockInv.bodyBit {s : State} (h : BlockInv s) : BlockInv (bodyBit s) := h.setCrc _

theorem BlockInv.bodyHw {s : State} (h : BlockInv s) : BlockInv (bodyHw s) := h.setCrc _

theorem BlockInv.bodyS16 {s : State} (h : BlockInv s) : BlockInv (bodyS16 s) := h.ensureTables.setCrc _

/-- The strategy that runs is the one `HW_CRC_AVAILABLE` selects (R32, R100). -/
theorem chooseSel_consistent {s : State} (h : SelConsistent s) : SelConsistent (setSel (chooseSel s) s) := by
  obtain ⟨hhw, hs16⟩ := h
  cases hsel : s.sel with
  | unset => cases hp : s.platform.hwCrcAvailable <;> simp [SelConsistent, chooseSel, hsel, hp]
  | hw => simp [SelConsistent, chooseSel, hsel, hhw hsel]
  | s16 => simp [SelConsistent, chooseSel, hsel, hs16 hsel]

theorem BlockInv.setSel_chooseSel {s : State} (h : BlockInv s) : BlockInv (setSel (chooseSel s) s) :=
  ⟨h.engineIdle, h.memoryCanonical, h.statusLegal, h.resultZeroUnlessOk, h.tablesBuilt,
    chooseSel_consistent h.selConsistent⟩

theorem BlockInv.bodySelected {s : State} (h : BlockInv s) : BlockInv (bodySelected s) := by
  have hsel := h.setSel_chooseSel
  rcases bodySelected_cases s with ⟨hc, hb⟩ | ⟨hc, hb⟩ <;> rw [hb] <;> rw [hc] at hsel
  · exact hsel.bodyHw
  · exact hsel.bodyS16

theorem BlockInv.crcFrame {body : State → State} (hbody : ∀ {s : State}, BlockInv s → BlockInv (body s))
    {s : State} (h : BlockInv s) (available : Bool) : BlockInv (crcFrame available body s) := by
  rcases crcFrame_cases available body s with ⟨-, hc⟩ | ⟨-, -, hc⟩ | ⟨-, -, hc⟩ <;> rw [hc]
  · exact h.raise _
  · exact h.raise _
  · exact (hbody (h.setCrc _)).finishOk _

/-! The LZ4 commands. -/

theorem BlockInv.execLz4Compress {s t : State} (h : BlockInv s) (ht : execLz4Compress s = .next t) : BlockInv t := by
  rcases execLz4Compress_cases s with ⟨-, hc⟩ | ⟨hr, b, hcap, -, hc⟩ | ⟨hr, b, -, hc⟩ | ⟨hr, b, -, -, hc⟩ <;>
    obtain rfl := Host.Outcome.next.inj (hc.symm.trans ht)
  · exact h.raise _
  · exact (h.setHash b).finishOutput hr hcap
  · exact (h.setHash b).raiseOutput hr _
  · exact (h.setHash b).raiseOutput hr _

theorem BlockInv.execLz4Decompress {s t : State} (h : BlockInv s) (ht : execLz4Decompress s = .next t) : BlockInv t := by
  rcases execLz4Decompress_cases s with ⟨-, hc⟩ | ⟨hr, out, hcap, -, hc⟩ | ⟨hr, c, -, hc⟩ <;>
    obtain rfl := Host.Outcome.next.inj (hc.symm.trans ht)
  · exact h.raise _
  · exact h.finishOutput hr hcap
  · exact h.raiseOutput hr c

/-! Commands, host actions, steps. -/

theorem BlockInv.exec {s t : State} {i : Instr} (h : BlockInv s) (hi : i ∈ allCommands) (ht : exec i s = .next t) :
    BlockInv t := by
  rcases mem_allCommands.1 hi with rfl | rfl | rfl | rfl | rfl | rfl
  · cases ht; exact h.crcFrame BlockInv.bodySelected _
  · cases ht; exact h.crcFrame BlockInv.bodyHw _
  · cases ht; exact h.crcFrame BlockInv.bodyS16 _
  · cases ht; exact h.crcFrame BlockInv.bodyBit _
  · exact h.execLz4Compress ht
  · exact h.execLz4Decompress ht

theorem BlockInv.commandWrite {s t : State} {v : Byte} (h : BlockInv s) (ht : commandWrite v s = .next t) :
    BlockInv t := by
  have hcmd : BlockInv { s with cmd := v } := h.of_unread_fields
  rcases commandWrite_cases v s with ⟨i, hi, hc⟩ | ⟨-, hc⟩ <;> rw [hc] at ht
  · exact hcmd.exec (decodeCommand_mem hi) ht
  · cases ht; exact hcmd.raise _

/-- The reset values meet the invariant with whatever canonical memory the platform holds (R39, R170). -/
theorem BlockInv.reset_with {m : Memory} (hm : m.wf) {draws : Nat} {platform : Platform} {inbox : List HostAction} :
    BlockInv { State.reset with mem := m, draws := draws, platform := platform, inbox := inbox } where
  engineIdle := rfl
  memoryCanonical := hm
  statusLegal := by simp [statusValues, statusIdle]
  resultZeroUnlessOk _ := rfl
  tablesBuilt hready := by cases hready
  selConsistent := ⟨nofun, nofun⟩

/-- Settles O54: memory that lists nothing is canonical. -/
theorem resetSatisfiesTheInvariant : Obligations.ResetSatisfiesTheInvariant :=
  BlockInv.reset_with reset_memory_wf

theorem BlockInv.hostAct {s t : State} {a : HostAction} (h : BlockInv s) (ht : hostAct a s = .next t) : BlockInv t := by
  cases a with
  | writeCmd v => exact h.commandWrite ht
  | writeSrc v => cases ht; exact h.of_unread_fields
  | writeLen v => cases ht; exact h.of_unread_fields
  | writeDst v => cases ht; exact h.of_unread_fields
  | writeCap v => cases ht; exact h.of_unread_fields
  | writeResult v => cases ht; exact h
  | writeStatus v => cases ht; exact h
  | readReg r => cases ht; exact h
  | writeMem a b =>
    obtain ⟨-, rfl⟩ := hostAct_writeMem_next ht
    exact h.of_mem (memWrite_wf h.memoryCanonical a.isLt b)
  | readMem a =>
    obtain ⟨-, rfl⟩ := hostAct_readMem_next ht
    exact h
  | reset => cases ht; exact BlockInv.reset_with h.memoryCanonical

theorem BlockInv.step {s t : State} (h : BlockInv s) (ht : step s = .next t) : BlockInv t := by
  rw [step_of_idle h.engineIdle] at ht
  rcases hostStep_cases s with ⟨-, hc⟩ | ⟨a, rest, -, hc⟩ <;> rw [hc] at ht
  · cases ht; exact h
  · exact (h.takeAction rest).hostAct ht

/-- Settles O55: the step of an idle block is a host action, and each one keeps the invariant. -/
theorem everyStepKeepsTheInvariant : Obligations.EveryStepKeepsTheInvariant := by
  unfold Obligations.EveryStepKeepsTheInvariant
  exact fun _ _ h ht => h.step ht

end Sys2Proof.Machine
end

/-! What no step changes: the parameters, and the host's list but for its first action (10_state.md R38, log entry 1). -/
section

namespace Sys2Proof.Machine

theorem bodyS16_surroundings (s : State) : SameSurroundings s (bodyS16 s) := by
  simp [bodyS16, SameSurroundings]

theorem bodySelected_surroundings (s : State) : SameSurroundings s (bodySelected s) := by
  rcases bodySelected_cases s with ⟨-, hb⟩ | ⟨-, hb⟩ <;> rw [hb]
  · exact ⟨rfl, rfl⟩
  · exact bodyS16_surroundings (setSel .s16 s)

theorem crcFrame_surroundings {body : State → State} (hbody : ∀ s, SameSurroundings s (body s)) (available : Bool)
    (s : State) : SameSurroundings s (crcFrame available body s) := by
  rcases crcFrame_cases available body s with ⟨-, hc⟩ | ⟨-, -, hc⟩ | ⟨-, -, hc⟩ <;> rw [hc]
  · exact ⟨rfl, rfl⟩
  · exact ⟨rfl, rfl⟩
  · exact hbody (setCrc crcInit s)

theorem endCompress_surroundings (out : List Byte) (s : State) : SameSurroundings s (endCompress out s) := by
  rcases endCompress_cases out s with ⟨-, -, hc⟩ | ⟨-, hc⟩ | ⟨-, -, hc⟩ <;> rw [hc] <;> exact ⟨rfl, rfl⟩

theorem execLz4Compress_surroundings {s t : State} (ht : execLz4Compress s = .next t) : SameSurroundings s t := by
  rcases execLz4Compress_cases s with ⟨-, hc⟩ | ⟨-, _, -, -, hc⟩ | ⟨-, _, -, hc⟩ | ⟨-, _, -, -, hc⟩ <;>
    obtain rfl := Host.Outcome.next.inj (hc.symm.trans ht) <;> exact ⟨rfl, rfl⟩

theorem execLz4Decompress_surroundings {s t : State} (ht : execLz4Decompress s = .next t) : SameSurroundings s t := by
  rcases execLz4Decompress_cases s with ⟨-, hc⟩ | ⟨-, _, -, -, hc⟩ | ⟨-, _, -, hc⟩ <;>
    obtain rfl := Host.Outcome.next.inj (hc.symm.trans ht) <;> exact ⟨rfl, rfl⟩

theorem endPass_surroundings (op : Nat) (r : PassEnd) (s : State) : SameSurroundings s (endPass op r s) := by
  cases r <;> exact ⟨rfl, rfl⟩

theorem execLz4Token_surroundings {ll ml : Nat} {s t : State} (ht : execLz4Token ll ml s = .next t) :
    SameSurroundings s t := by
  rcases execLz4Token_cases ll ml s with ⟨-, hc⟩ | ⟨ip, op, -, hc⟩ <;> rw [hc] at ht <;> cases ht
  exact endPass_surroundings ..

/-- No instruction touches the parameters or the host's list. -/
theorem exec_surroundings {i : Instr} {s t : State} (ht : exec i s = .next t) : SameSurroundings s t := by
  cases i with
  | crc32c => cases ht; exact crcFrame_surroundings bodySelected_surroundings _ s
  | crc32cHw => cases ht; exact crcFrame_surroundings (body := bodyHw) (fun _ => ⟨rfl, rfl⟩) _ s
  | crc32cS16 => cases ht; exact crcFrame_surroundings bodyS16_surroundings _ s
  | crc32cBit => cases ht; exact crcFrame_surroundings (body := bodyBit) (fun _ => ⟨rfl, rfl⟩) _ s
  | lz4Compress => exact execLz4Compress_surroundings ht
  | lz4Decompress => exact execLz4Decompress_surroundings ht
  | lz4Token ll ml => exact execLz4Token_surroundings ht

theorem commandWrite_surroundings {v : Byte} {s t : State} (ht : commandWrite v s = .next t) :
    SameSurroundings s t := by
  rcases commandWrite_cases v s with ⟨i, -, hc⟩ | ⟨-, hc⟩ <;> rw [hc] at ht
  · exact exec_surroundings (s := { s with cmd := v }) ht
  · cases ht; exact ⟨rfl, rfl⟩

theorem hostAct_surroundings {a : HostAction} {s t : State} (ht : hostAct a s = .next t) : SameSurroundings s t := by
  cases a with
  | writeCmd v => exact commandWrite_surroundings ht
  | writeMem a b =>
    obtain ⟨-, rfl⟩ := hostAct_writeMem_next ht
    exact ⟨rfl, rfl⟩
  | readMem a =>
    obtain ⟨-, rfl⟩ := hostAct_readMem_next ht
    exact ⟨rfl, rfl⟩
  | writeSrc _ | writeLen _ | writeDst _ | writeCap _ | writeResult _ | writeStatus _ | readReg _ | reset =>
    cases ht; exact ⟨rfl, rfl⟩

theorem continueCompress_surroundings {s t : State} (ht : continueCompress s = .next t) : SameSurroundings s t := by
  unfold continueCompress at ht
  split at ht <;> cases ht
  split
  · exact ⟨rfl, rfl⟩
  · exact endCompress_surroundings ..

theorem streamStep_surroundings {s t : State} (ht : streamStep s = .next t) : SameSurroundings s t := by
  unfold streamStep at ht
  split at ht
  · split at ht
    · exact exec_surroundings (s := skipToken _ _ s) ht
    · cases ht; exact ⟨rfl, rfl⟩
  · cases ht

/-- A step keeps the surroundings, but for the one action it may take off the list. -/
theorem step_surroundings {s t : State} (ht : step s = .next t) :
    SameSurroundings s t ∨ SameSurroundings (takeAction s.inbox.tail s) t := by
  unfold step at ht
  split at ht
  · rcases hostStep_cases s with ⟨-, hc⟩ | ⟨a, rest, hin, hc⟩ <;> rw [hc] at ht
    · cases ht; exact .inl ⟨rfl, rfl⟩
    · rw [hin]; exact .inr (hostAct_surroundings ht)
  · exact .inl (continueCompress_surroundings ht)
  · exact .inl (streamStep_surroundings ht)

/-- Settles O56: whichever action or pass a step performs, it keeps the surroundings, after at most one action is taken. -/
theorem everyStepKeepsTheParameters : Obligations.EveryStepKeepsTheParameters := by
  unfold Obligations.EveryStepKeepsTheParameters
  intro s t ht
  rcases step_surroundings ht with ⟨hp, hi⟩ | ⟨hp, hi⟩
  · exact ⟨hp, .inl hi⟩
  · exact ⟨hp, .inr hi⟩

end Sys2Proof.Machine
end

/-! Noninterference: what a command leaves in `STATUS`, `RESULT` and the output depends on its operands, its source bytes and
the parameters only (10_state.md R36, R37, 43_other_classes.md R185). -/
section

namespace Sys2Proof.Machine

/-- What a command may depend on: the operands, the parameters and the bytes of the source region. -/
structure SameInputs (s t : State) : Prop where
  src : s.src = t.src
  len : s.len = t.len
  dst : s.dst = t.dst
  cap : s.cap = t.cap
  platform : s.platform = t.platform
  source : sourceBytes s = sourceBytes t

theorem SameInputs.sourceOk_eq {s t : State} (h : SameInputs s t) : sourceOk s = sourceOk t := by
  simp only [sourceOk, h.src, h.len, h.platform]

theorem SameInputs.rangeOk_eq {s t : State} (h : SameInputs s t) : rangeOk s = rangeOk t := by
  simp only [rangeOk, h.sourceOk_eq, h.src, h.len, h.dst, h.cap, h.platform]

/-! The checksum commands: every body computes the byte fold, so the outcome is a function of the source. -/

/-- The body's accumulator ends as the byte fold of the source region (R93), if the tables are right once built. -/
def ComputesCrc (body : State → State) : Prop :=
  ∀ s, TablesBuilt s → (body s).crc = crcRaw s.crc (sourceBytes s)

theorem bodyBit_computesCrc : ComputesCrc bodyBit := fun s _ => crcBitwise_eq_crcRaw s.crc (sourceBytes s)

theorem bodyHw_computesCrc : ComputesCrc bodyHw := fun s _ => crcQwords_eq_crcRaw s.crc (sourceBytes s)

theorem sourceBytes_ensureTables (s : State) : sourceBytes (ensureTables s) = sourceBytes s := by
  simp [sourceBytes]

theorem bodyS16_computesCrc : ComputesCrc bodyS16 := fun s h => by
  simp only [bodyS16, setCrc_crc, ensureTables_tables h, ensureTables_crc, sourceBytes_ensureTables,
    crcSlicing_crcTables]

theorem bodySelected_computesCrc : ComputesCrc bodySelected := fun s h => by
  rcases bodySelected_cases s with ⟨-, hb⟩ | ⟨-, hb⟩ <;> rw [hb]
  · exact bodyHw_computesCrc (setSel .hw s) h
  · exact bodyS16_computesCrc (setSel .s16 s) h

theorem crcFrame_status (available : Bool) (body : State → State) (s : State) :
    (crcFrame available body s).status =
      codeByte (if sourceOk s then if available then .ok else .errUnavailable else .errBadRange) := by
  rcases crcFrame_cases available body s with ⟨hs, hc⟩ | ⟨hs, ha, hc⟩ | ⟨hs, ha, hc⟩ <;> rw [hc, hs]
  · rfl
  · rw [ha]; rfl
  · rw [ha]; rfl

theorem crcFrame_result {body : State → State} (hbody : ComputesCrc body) (available : Bool) {s : State}
    (h : TablesBuilt s) :
    (crcFrame available body s).result = if sourceOk s && available then crc32c (sourceBytes s) else 0 := by
  have hcrc : (body (setCrc crcInit s)).crc = crcRaw crcInit (sourceBytes s) := hbody (setCrc crcInit s) h
  rcases crcFrame_cases available body s with ⟨hs, hc⟩ | ⟨hs, ha, hc⟩ | ⟨hs, ha, hc⟩ <;> rw [hc, hs]
  · rfl
  · rw [ha]; rfl
  · rw [ha, finishOk_result, hcrc]; rfl

theorem crcFrame_noninterference {body : State → State} (hbody : ComputesCrc body) (available : Bool) {s t : State}
    (h : SameInputs s t) (hs : TablesBuilt s) (ht : TablesBuilt t) :
    (crcFrame available body s).status = (crcFrame available body t).status ∧
      (crcFrame available body s).result = (crcFrame available body t).result := by
  simp only [crcFrame_status, crcFrame_result hbody available hs, crcFrame_result hbody available ht, h.sourceOk_eq,
    h.source, and_self]

theorem execChecksum_noninterference {s t : State} {i : Instr} (hi : i ∈ checksumCommands) (h : SameInputs s t)
    (hs : TablesBuilt s) (ht : TablesBuilt t) :
    ∃ s' t', exec i s = .next s' ∧ exec i t = .next t' ∧ s'.status = t'.status ∧ s'.result = t'.result := by
  simp only [checksumCommands, List.mem_cons, List.not_mem_nil, or_false] at hi
  rcases hi with rfl | rfl | rfl | rfl
  · exact ⟨_, _, rfl, rfl, crcFrame_noninterference bodySelected_computesCrc _ h hs ht⟩
  · refine ⟨_, _, rfl, rfl, ?_⟩
    rw [h.platform]
    exact crcFrame_noninterference bodyHw_computesCrc _ h hs ht
  · exact ⟨_, _, rfl, rfl, crcFrame_noninterference bodyS16_computesCrc _ h hs ht⟩
  · exact ⟨_, _, rfl, rfl, crcFrame_noninterference bodyBit_computesCrc _ h hs ht⟩

/-! The LZ4 commands: they end with an output or a code that is a function of the inputs. -/

/-- Do two ends of a command with destination address `base` agree in `STATUS`, `RESULT` and the `RESULT` bytes there? -/
structure SameOutcome (base : Nat) (s t : State) : Prop where
  status : s.status = t.status
  result : s.result = t.result
  output : memReadBytes s.mem base s.result.toNat = memReadBytes t.mem base t.result.toNat

theorem raise_sameOutcome (base : Nat) (c : Code) (s t : State) : SameOutcome base (raise c s) (raise c t) :=
  ⟨rfl, rfl, rfl⟩

theorem raiseOutput_sameOutcome (base : Nat) (c : Code) (s t : State) :
    SameOutcome base (raiseOutput c s) (raiseOutput c t) :=
  ⟨rfl, rfl, rfl⟩

/-- What the host reads back is the output, which a register can count since it fits `CAP`. -/
theorem finishOutput_output {out : List Byte} {s : State} (h : out.length ≤ s.cap.toNat) :
    memReadBytes (finishOutput out s).mem s.dst.toNat (finishOutput out s).result.toNat = out := by
  have hlen : (BitVec.ofNat 32 out.length).toNat = out.length := by
    have := s.cap.isLt
    rw [BitVec.toNat_ofNat, Nat.mod_eq_of_lt (by omega)]
  rw [finishOutput_result, hlen]
  exact memReadBytes_memSettle ..

theorem finishOutput_sameOutcome {out : List Byte} {s t : State} (hdst : s.dst = t.dst) (hcap : s.cap = t.cap)
    (h : out.length ≤ s.cap.toNat) : SameOutcome s.dst.toNat (finishOutput out s) (finishOutput out t) := by
  refine ⟨rfl, rfl, (finishOutput_output h).trans ?_⟩
  rw [hdst]
  exact (finishOutput_output (hcap ▸ h)).symm

theorem endInflate_sameOutcome {r : Except Code (List Byte)} {s t : State} (hdst : s.dst = t.dst) (hcap : s.cap = t.cap)
    (hr : ∀ out, r = .ok out → out.length ≤ s.cap.toNat) :
    SameOutcome s.dst.toNat (endInflate r s) (endInflate r t) := by
  cases r with
  | ok out => exact finishOutput_sameOutcome hdst hcap (hr out rfl)
  | error c => exact raiseOutput_sameOutcome _ c s t

/-- The compressor's complete output, or the code with which the command ends without one (R120). -/
def compressEnd (len cap : Nat) (out : List Byte) : Except Code (List Byte) :=
  match compressCode len cap out.length with
  | .ok => .ok out
  | c => .error c

/-- Both LZ4 commands end in the same way, with an output or a code. -/
theorem endCompress_eq_endInflate (out : List Byte) (s : State) :
    endCompress out s = endInflate (compressEnd s.len.toNat s.cap.toNat out) s := by
  unfold endCompress compressEnd
  cases compressCode s.len.toNat s.cap.toNat out.length <;> rfl

theorem compressCode_eq_ok_iff {len cap n : Nat} : compressCode len cap n = .ok ↔ n ≤ cap ∧ n < len := by
  unfold compressCode
  split_ifs <;> simp <;> omega

theorem compressEnd_length_le {len cap : Nat} {out out' : List Byte} (h : compressEnd len cap out = .ok out') :
    out'.length ≤ cap := by
  unfold compressEnd at h
  split at h
  · cases h
    exact (compressCode_eq_ok_iff.1 ‹_›).1
  · cases h

theorem execLz4Decompress_eq (s : State) :
    exec .lz4Decompress s = .next (if rangeOk s then endInflate (inflate s.cap.toNat (sourceBytes s)) s
      else raise .errBadRange s) := rfl

theorem execLz4Compress_eq (s : State) :
    exec .lz4Compress s = .next (if rangeOk s then
        endInflate (compressEnd s.len.toNat s.cap.toNat (deflate s.platform.hashMul (sourceBytes s)))
          (setHash (compressorEnd s.platform.hashMul (sourceBytes s)).hash s)
      else raise .errBadRange s) := by
  simp only [exec, execLz4Compress, endCompress_eq_endInflate]
  rfl

theorem execLz4Decompress_noninterference {s t : State} (h : SameInputs s t) :
    ∃ s' t', exec .lz4Decompress s = .next s' ∧ exec .lz4Decompress t = .next t' ∧ SameOutcome s.dst.toNat s' t' := by
  refine ⟨_, _, execLz4Decompress_eq s, execLz4Decompress_eq t, ?_⟩
  rw [← h.rangeOk_eq, ← h.cap, ← h.source]
  split
  · exact endInflate_sameOutcome h.dst h.cap fun _ => inflate_length_le
  · exact raise_sameOutcome ..

theorem execLz4Compress_noninterference {s t : State} (h : SameInputs s t) :
    ∃ s' t', exec .lz4Compress s = .next s' ∧ exec .lz4Compress t = .next t' ∧ SameOutcome s.dst.toNat s' t' := by
  refine ⟨_, _, execLz4Compress_eq s, execLz4Compress_eq t, ?_⟩
  rw [← h.rangeOk_eq, ← h.cap, ← h.len, ← h.source, ← h.platform]
  generalize (compressorEnd s.platform.hashMul (sourceBytes s)).hash = b
  split
  · exact endInflate_sameOutcome (s := setHash b s) (t := setHash b t) h.dst h.cap fun _ => compressEnd_length_le
  · exact raise_sameOutcome ..

theorem execLz4_noninterference {s t : State} {i : Instr} (hi : i ∈ lz4Commands) (h : SameInputs s t) :
    ∃ s' t', exec i s = .next s' ∧ exec i t = .next t' ∧ SameOutcome s.dst.toNat s' t' := by
  simp only [lz4Commands, List.mem_cons, List.not_mem_nil, or_false] at hi
  rcases hi with rfl | rfl
  · exact execLz4Compress_noninterference h
  · exact execLz4Decompress_noninterference h

/-- Settles O53: a checksum command's outcome is a function of its source by `crcFrame_result`, an LZ4 command's outcome and
output by the common end of the two. -/
theorem resultDependsOnOperandsAndSourceOnly : Obligations.ResultDependsOnOperandsAndSourceOnly := by
  unfold Obligations.ResultDependsOnOperandsAndSourceOnly
  intro s t i hi hs ht hsrc hlen hdst hcap hplatform hsource
  have h : SameInputs s t := ⟨hsrc, hlen, hdst, hcap, hplatform, hsource⟩
  by_cases hlz4 : i ∈ lz4Commands
  · obtain ⟨s', t', hs', ht', hstatus, hresult, houtput⟩ := execLz4_noninterference hlz4 h
    exact ⟨s', t', hs', ht', hstatus, hresult, fun _ _ => hdst ▸ houtput⟩
  · have hcrc : i ∈ checksumCommands := (List.mem_append.1 hi).resolve_right hlz4
    obtain ⟨s', t', hs', ht', hstatus, hresult⟩ := execChecksum_noninterference hcrc h hs ht
    exact ⟨s', t', hs', ht', hstatus, hresult, fun hmem => absurd hmem hlz4⟩

end Sys2Proof.Machine
end

/-! The range check in terms of addresses, and a host's store (20_memory.md R45, R47, R48, R55, R58, R60). -/
section

namespace Sys2Proof.Machine

theorem hostAct_writeMem_of_valid {s : State} {a : Word} (h : memValid s.platform a.toNat = true) (b : Byte) :
    hostAct (.writeMem a b) s = .next { s with mem := memWrite s.mem a.toNat b } := by
  rw [hostAct, if_pos h]

/-- Settles O9: the step is the store, and `memRead_memWrite` says what is read after one. -/
theorem hostStoreIsSeen : Obligations.HostStoreIsSeen := by
  unfold Obligations.HostStoreIsSeen
  intro s rest a b hidle hin hvalid
  have hstep : step s = .next { s with inbox := rest, mem := memWrite s.mem a.toNat b } :=
    (step_of_action hidle hin).trans (hostAct_writeMem_of_valid (s := takeAction rest s) hvalid b)
  exact ⟨_, hstep, rfl, fun c => memRead_memWrite s.mem a.toNat c b⟩

theorem memValid_iff {p : Platform} {a : Nat} :
    memValid p a = true ↔ ∀ h ∈ p.holes, ¬ inRegion h.base h.size a := by
  simp only [memValid, List.all_eq_true, Bool.not_eq_true', Bool.and_eq_false_iff, decide_eq_false_iff_not, not_and_or]

/-- Two ranges share no address exactly if one is empty or one ends before the other begins: where neither holds, the
higher of the two first addresses is in both. -/
theorem disjoint_ranges_iff {base n lo size : Nat} :
    (n = 0 ∨ size = 0 ∨ base + n ≤ lo ∨ lo + size ≤ base) ↔ ∀ a, inRegion base n a → ¬ inRegion lo size a := by
  constructor
  · intro h a ha hhole
    simp only [inRegion] at ha hhole
    omega
  · intro h
    have hmax := h (max base lo)
    simp only [inRegion] at hmax
    omega

theorem regionValid_iff {p : Platform} {base n : Nat} :
    regionValid p base n = true ↔ ∀ h ∈ p.holes, ∀ a, inRegion base n a → ¬ inRegion h.base h.size a := by
  simp only [← disjoint_ranges_iff, regionValid, List.all_eq_true, Bool.or_eq_true, decide_eq_true_eq, or_assoc]

/-- Settles O12: for each hole, the comparison of ranges says that no address is in both. -/
theorem regionCheckIsPointwise : Obligations.RegionCheckIsPointwise := by
  unfold Obligations.RegionCheckIsPointwise
  intro p base n
  simp only [regionValid_iff, memValid_iff]
  exact ⟨fun h a ha hole hmem => h hole hmem a ha, fun h hole hmem a ha => h a ha hole hmem⟩

/-- When a region is bad: it leaves the address space, or holds an address that does not exist (R47 (a), (b)). -/
theorem regionOk_eq_false_iff {p : Platform} {base n : Nat} :
    regionOk p base n = false ↔ base + n > 2 ^ 32 ∨ ∃ a, inRegion base n a ∧ memValid p a = false := by
  have hvalid : regionValid p base n = false ↔ ∃ a, inRegion base n a ∧ memValid p a = false := by
    rw [← Bool.not_eq_true, regionCheckIsPointwise p base n]
    simp [and_assoc]
  rw [regionOk, Bool.and_eq_false_iff, hvalid, decide_eq_false_iff_not, Nat.not_le, addressSpace]

theorem regionsOverlap_eq_true_iff {src len dst cap : Nat} :
    regionsOverlap src len dst cap = true ↔ len ≠ 0 ∧ cap ≠ 0 ∧ src < dst + cap ∧ dst < src + len := by
  simp [regionsOverlap, and_assoc]

/-- When the regions of an LZ4 command are bad (R47, R48). -/
theorem rangeOk_eq_false_iff {s : State} :
    rangeOk s = false ↔ sourceOk s = false ∨ regionOk s.platform s.dst.toNat s.cap.toNat = false ∨
      regionsOverlap s.src.toNat s.len.toNat s.dst.toNat s.cap.toNat = true := by
  simp only [rangeOk, Bool.and_eq_false_iff, Bool.not_eq_false', or_assoc]

end Sys2Proof.Machine
end

/-! What each command leaves: the two families in one form each, the codes they end with, and their frames (20_memory.md R47,
R55 to R57, 41_lz4_compress.md R112, R120, 42_lz4_decompress.md R131, R141). -/
section

namespace Sys2Proof.Machine

/-! The checksum commands. -/

theorem bodyS16_source (s : State) : sourceBytes (bodyS16 s) = sourceBytes s := sourceBytes_ensureTables s

theorem bodySelected_source (s : State) : sourceBytes (bodySelected s) = sourceBytes s := by
  rcases bodySelected_cases s with ⟨-, hb⟩ | ⟨-, hb⟩ <;> rw [hb]
  · rfl
  · exact bodyS16_source (setSel .s16 s)

/-- A checksum command is the frame of R101 around a body that keeps the source region. -/
theorem exec_checksum_eq {i : Instr} (hi : i ∈ checksumCommands) (s : State) :
    ∃ available body, (∀ u, sourceBytes (body u) = sourceBytes u) ∧
      exec i s = .next (crcFrame available body s) := by
  simp only [checksumCommands, List.mem_cons, List.not_mem_nil, or_false] at hi
  rcases hi with rfl | rfl | rfl | rfl
  · exact ⟨true, bodySelected, bodySelected_source, rfl⟩
  · exact ⟨s.platform.hwCrcAvailable, bodyHw, fun _ => rfl, rfl⟩
  · exact ⟨true, bodyS16, bodyS16_source, rfl⟩
  · exact ⟨true, bodyBit, fun _ => rfl, rfl⟩

theorem crcFrame_source {body : State → State} (hbody : ∀ u, sourceBytes (body u) = sourceBytes u) (available : Bool)
    (s : State) : sourceBytes (crcFrame available body s) = sourceBytes s := by
  rcases crcFrame_cases available body s with ⟨-, hc⟩ | ⟨-, -, hc⟩ | ⟨-, -, hc⟩ <;> rw [hc]
  · rfl
  · rfl
  · exact hbody (setCrc crcInit s)

/-! The codes with which an LZ4 command ends without output. -/

/-- The `FAIL_*` outcomes (R141, R151). -/
def failCodes : List Code := [.failSrcOverrun, .failDstOverrun, .failBadOffset]

theorem matchPass_failed {cap ml : Nat} {rest out : List Byte} {c : Code} (h : matchPass cap ml rest out = .failed c) :
    c ∈ failCodes := by
  unfold matchPass at h
  split at h
  · split at h; · cases h; decide
    split at h; · cases h; decide
    split at h; · cases h; decide
    split at h <;> cases h
    decide
  · cases h; decide

theorem streamPass_failed {cap ll ml : Nat} {rest out : List Byte} {c : Code}
    (h : streamPass cap ll ml rest out = .failed c) : c ∈ failCodes := by
  unfold streamPass at h
  split at h
  · cases h; decide
  · split at h; · cases h; decide
    split at h; · cases h; decide
    split at h; · cases h
    exact matchPass_failed h

theorem inflateLoop_error {cap : Nat} (n : Nat) {bs out : List Byte} {c : Code}
    (h : inflateLoop cap n bs out = .error c) : c ∈ failCodes := by
  induction n generalizing bs out with
  | zero => cases h; decide
  | succ n ih =>
    cases bs with
    | nil => cases h; decide
    | cons token rest =>
      rw [inflateLoop] at h
      split at h
      · exact ih h
      · cases h
      · cases h; exact streamPass_failed ‹_›

/-- The decompressor fails with a `FAIL_*` code (R141). -/
theorem inflate_error {cap : Nat} {bs : List Byte} {c : Code} (h : inflate cap bs = .error c) :
    c ∈ failCodes :=
  inflateLoop_error _ h

/-- The compressor ends without output with a `NONE_*` code (R120). -/
theorem compressEnd_error {len cap : Nat} {out : List Byte} {c : Code} (h : compressEnd len cap out = .error c) :
    c ∈ [Code.noneCapacity, .noneNoGain] := by
  unfold compressEnd compressCode at h
  split_ifs at h <;> cases h <;> simp

/-! The LZ4 commands. -/

/-- What an engine that has started can end with: output that fits the capacity, or a code other than that of the range
check. -/
def EngineEnd (cap : Nat) : Except Code (List Byte) → Prop
  | .ok out => out.length ≤ cap
  | .error c => c ≠ .errBadRange

theorem inflate_engineEnd (cap : Nat) (bs : List Byte) : EngineEnd cap (inflate cap bs) := by
  cases h : inflate cap bs with
  | ok out => exact inflate_length_le h
  | error c => rintro rfl; exact absurd (inflate_error h) (by decide)

theorem compressEnd_engineEnd (len cap : Nat) (out : List Byte) : EngineEnd cap (compressEnd len cap out) := by
  cases h : compressEnd len cap out with
  | ok out' => exact compressEnd_length_le h
  | error c => rintro rfl; exact absurd (compressEnd_error h) (by decide)

/-- An LZ4 command is the range check and the common end of the two; `LZ4.DECOMPRESS` has no hash table. -/
theorem exec_lz4_eq {i : Instr} (hi : i ∈ lz4Commands) (s : State) :
    ∃ r b, EngineEnd s.cap.toNat r ∧ (i = .lz4Decompress → b = s.hash) ∧
      exec i s = .next (if rangeOk s then endInflate r (setHash b s) else raise .errBadRange s) := by
  simp only [lz4Commands, List.mem_cons, List.not_mem_nil, or_false] at hi
  rcases hi with rfl | rfl
  · exact ⟨_, _, compressEnd_engineEnd _ _ _, nofun, execLz4Compress_eq s⟩
  · exact ⟨_, s.hash, inflate_engineEnd _ _, fun _ => rfl, execLz4Decompress_eq s⟩

theorem endInflate_frame (r : Except Code (List Byte)) (s : State) :
    SameOperands s (endInflate r s) ∧ SameLazyState s (endInflate r s) ∧ SameSurroundings s (endInflate r s) ∧
      (endInflate r s).crc = s.crc ∧ (endInflate r s).hash = s.hash := by
  cases r <;> exact ⟨⟨rfl, rfl, rfl, rfl, rfl⟩, ⟨rfl, rfl, rfl⟩, ⟨rfl, rfl⟩, rfl, rfl⟩

theorem endInflate_memory {r : Except Code (List Byte)} {s : State} (h : EngineEnd s.cap.toNat r) :
    SameMemoryOutside s.dst.toNat s.cap.toNat s (endInflate r s) := by
  intro a ha
  cases r with
  | ok out => exact memRead_memSettle_outside h ha
  | error c => exact memRead_memSettle_outside (Nat.zero_le _) ha

theorem endInflate_source {r : Except Code (List Byte)} {s : State} (hr : rangeOk s = true)
    (h : EngineEnd s.cap.toNat r) : sourceBytes (endInflate r s) = sourceBytes s := by
  cases r with
  | ok out => exact memReadBytes_memSettle_source hr h
  | error c => exact memReadBytes_memSettle_source hr (Nat.zero_le _)

theorem codeByte_eq_badRange_iff {c : Code} : codeByte c = 0x31#8 ↔ c = .errBadRange := by
  cases c <;> decide

theorem endInflate_status_ne_badRange {r : Except Code (List Byte)} {s : State} (h : EngineEnd s.cap.toNat r) :
    (endInflate r s).status ≠ 0x31#8 := by
  cases r with
  | ok out => exact mt (codeByte_eq_badRange_iff (c := .ok)).1 nofun
  | error c => exact mt codeByte_eq_badRange_iff.1 h

/-- Settles O48: a refused command changes `STATUS` and `RESULT`; one that ran ends by `endInflate`. -/
theorem lz4CommandsFrame : Obligations.Lz4CommandsFrame := by
  unfold Obligations.Lz4CommandsFrame
  intro s t i hi ht
  obtain ⟨r, b, hend, hb, heq⟩ := exec_lz4_eq hi s
  obtain rfl := Host.Outcome.next.inj (heq.symm.trans ht)
  cases hr : rangeOk s with
  | false =>
    exact ⟨⟨rfl, rfl, rfl, rfl, rfl⟩, ⟨rfl, rfl, rfl⟩, ⟨rfl, rfl⟩, rfl, fun _ _ => rfl, fun _ => ⟨fun _ => rfl, rfl⟩,
      fun _ => rfl⟩
  | true =>
    obtain ⟨hops, hlazy, hsur, hcrc, hhash⟩ := endInflate_frame r (setHash b s)
    exact ⟨hops, hlazy, hsur, hcrc, endInflate_memory (s := setHash b s) hend,
      fun hstatus => absurd hstatus (endInflate_status_ne_badRange (s := setHash b s) hend),
      fun hdec => hhash.trans (hb hdec)⟩

/-! All commands. -/

/-- Settles O52: a checksum command writes no memory, and a destination region that passed the range check does not meet the
source region. -/
theorem sourceRegionIsNeverWritten : Obligations.SourceRegionIsNeverWritten := by
  unfold Obligations.SourceRegionIsNeverWritten
  intro s t i hi ht
  rcases List.mem_append.1 hi with hcrc | hlz4
  · obtain ⟨available, body, hbody, heq⟩ := exec_checksum_eq hcrc s
    obtain rfl := Host.Outcome.next.inj (heq.symm.trans ht)
    exact crcFrame_source hbody available s
  · obtain ⟨r, b, hend, -, heq⟩ := exec_lz4_eq hlz4 s
    obtain rfl := Host.Outcome.next.inj (heq.symm.trans ht)
    cases hr : rangeOk s with
    | false => rfl
    | true => exact endInflate_source (s := setHash b s) hr hend

theorem exec_checksum_of_badSource {i : Instr} (hi : i ∈ checksumCommands) {s : State} (h : sourceOk s = false) :
    exec i s = .next (raise .errBadRange s) := by
  obtain ⟨available, body, -, heq⟩ := exec_checksum_eq hi s
  rw [heq, crcFrame, h]
  rfl

theorem exec_checksum_of_sourceOk {i : Instr} (hi : i ∈ checksumCommands) {s : State} (h : sourceOk s = true) :
    ∃ t, exec i s = .next t ∧ t.status ≠ 0x31#8 := by
  obtain ⟨available, body, -, heq⟩ := exec_checksum_eq hi s
  refine ⟨_, heq, ?_⟩
  rw [crcFrame_status, h, Ne, codeByte_eq_badRange_iff]
  cases available <;> nofun

theorem exec_lz4_of_badRange {i : Instr} (hi : i ∈ lz4Commands) {s : State} (h : rangeOk s = false) :
    exec i s = .next (raise .errBadRange s) := by
  obtain ⟨r, b, -, -, heq⟩ := exec_lz4_eq hi s
  rw [heq, h]
  rfl

theorem exec_lz4_of_rangeOk {i : Instr} (hi : i ∈ lz4Commands) {s : State} (h : rangeOk s = true) :
    ∃ t, exec i s = .next t ∧ t.status ≠ 0x31#8 := by
  obtain ⟨r, b, hend, -, heq⟩ := exec_lz4_eq hi s
  refine ⟨_, heq, ?_⟩
  rw [h]
  exact endInflate_status_ne_badRange (s := setHash b s) hend

theorem not_mem_lz4Commands {i : Instr} (hi : i ∈ checksumCommands) : i ∉ lz4Commands := by
  simp only [checksumCommands, List.mem_cons, List.not_mem_nil, or_false] at hi
  rcases hi with rfl | rfl | rfl | rfl <;> decide

/-- Settles O13: the bad regions are those the check of the command's family refuses, and no body ends with the code of a
refusal. -/
theorem badRangeIsRefusedAndChangesNothing : Obligations.BadRangeIsRefusedAndChangesNothing := by
  unfold Obligations.BadRangeIsRefusedAndChangesNothing
  intro s i badSource badDestination bad hi
  have hsource : badSource ↔ sourceOk s = false := regionOk_eq_false_iff.symm
  have hdestination : badDestination ↔ regionOk s.platform s.dst.toNat s.cap.toNat = false ∨
      regionsOverlap s.src.toNat s.len.toNat s.dst.toNat s.cap.toNat = true := by
    rw [regionOk_eq_false_iff, regionsOverlap_eq_true_iff, or_assoc]
  have hrange : badSource ∨ badDestination ↔ rangeOk s = false :=
    (or_congr hsource hdestination).trans rangeOk_eq_false_iff.symm
  rcases List.mem_append.1 hi with hcrc | hlz4
  · have hbad : bad ↔ sourceOk s = false :=
      (or_iff_left fun h => not_mem_lz4Commands hcrc h.1).trans hsource
    rw [hbad, Bool.not_eq_false]
    exact ⟨exec_checksum_of_badSource hcrc, exec_checksum_of_sourceOk hcrc⟩
  · have hbad : bad ↔ rangeOk s = false :=
      (or_congr_right (and_iff_right hlz4)).trans hrange
    rw [hbad, Bool.not_eq_false]
    exact ⟨exec_lz4_of_badRange hlz4, exec_lz4_of_rangeOk hlz4⟩

end Sys2Proof.Machine
end

/-! Decoding and encoding: the command map both ways, and a token as its two nibbles (30_encoding.md R65 to R70). -/
section

namespace Sys2Proof.Machine

/-! The command map. -/

theorem decodeCommand_eq_some_iff {v : Byte} {i : Instr} : decodeCommand v = some i ↔ (v, i) ∈ commandTable := by
  constructor
  · intro h
    obtain ⟨row, hfind, rfl⟩ := Option.map_eq_some_iff.1 h
    obtain rfl : row.1 = v := by simpa using List.find?_some hfind
    exact List.mem_of_find?_eq_some hfind
  · intro h
    simp only [commandTable, List.mem_cons, List.not_mem_nil, or_false, Prod.mk.injEq] at h
    rcases h with ⟨rfl, rfl⟩ | ⟨rfl, rfl⟩ | ⟨rfl, rfl⟩ | ⟨rfl, rfl⟩ | ⟨rfl, rfl⟩ | ⟨rfl, rfl⟩ <;> rfl

theorem decodeCommand_eq_none_iff {v : Byte} : decodeCommand v = none ↔ v ∉ commandTable.map Prod.fst := by
  rw [Option.eq_none_iff_forall_ne_some, List.mem_map, not_exists]
  simp only [Ne, decodeCommand_eq_some_iff]
  exact ⟨fun h row hrow => h row.2 (hrow.2 ▸ hrow.1), fun h i hmem => h (v, i) ⟨hmem, rfl⟩⟩

/-- Every row of the map is a command with no field, and its code is all of its encoding (R65, R66). -/
theorem commandTable_rows :
    ∀ row ∈ commandTable, row.2.wellFormed = true ∧ portOf row.2 = .command ∧ encode row.2 = [row.1] := by
  decide

/-! Reading at each port. -/

theorem decode_nil (p : Port) : decode p [] = .error .nothingToRead := by
  cases p <;> rfl

theorem decode_stream_cons (b : Byte) (rest : List Byte) : decode .stream (b :: rest) = .ok (decodeToken b, rest) :=
  rfl

theorem decode_command_cons_eq_ok {v : Byte} {rest rest' : List Byte} {i : Instr} :
    decode .command (v :: rest) = .ok (i, rest') ↔ (v, i) ∈ commandTable ∧ rest = rest' := by
  rw [← decodeCommand_eq_some_iff]
  cases h : decodeCommand v <;> simp [decode, h]

theorem decode_command_cons_of_none {v : Byte} (h : decodeCommand v = none) (rest : List Byte) :
    decode .command (v :: rest) = .error (.illegalCode v) := by
  simp only [decode, h]

/-! The token byte and its nibbles (R70). -/

theorem tokenLL_eq_div (b : Byte) : tokenLL b = b.toNat / 16 := by
  rw [tokenLL, BitVec.toNat_ushiftRight, Nat.shiftRight_eq_div_pow]

theorem tokenML_eq_mod (b : Byte) : tokenML b = b.toNat % 16 := by
  rw [tokenML, BitVec.toNat_and]
  exact Nat.and_two_pow_sub_one_eq_mod b.toNat 4

theorem tokenLL_lt (b : Byte) : tokenLL b < 16 := by
  have := b.isLt
  rw [tokenLL_eq_div]
  omega

theorem tokenML_lt (b : Byte) : tokenML b < 16 := by
  rw [tokenML_eq_mod]
  omega

/-- The two nibbles do not meet: a token byte is their sum. -/
theorem encodeToken_toNat {ll ml : Nat} (hll : ll < 16) (hml : ml < 16) :
    (encodeToken ll ml).toNat = 16 * ll + ml := by
  have hhigh : (BitVec.ofNat 8 ll <<< 4).toNat = ll <<< 4 := by
    simp only [BitVec.toNat_shiftLeft, BitVec.toNat_ofNat, Nat.shiftLeft_eq]
    omega
  have hlow : (BitVec.ofNat 8 ml).toNat = ml := by
    rw [BitVec.toNat_ofNat]
    omega
  rw [encodeToken, BitVec.toNat_or, hhigh, hlow, ← Nat.shiftLeft_add_eq_or_of_lt hml, Nat.shiftLeft_eq]
  omega

theorem tokenLL_encodeToken {ll ml : Nat} (hll : ll < 16) (hml : ml < 16) : tokenLL (encodeToken ll ml) = ll := by
  rw [tokenLL_eq_div, encodeToken_toNat hll hml]
  omega

theorem tokenML_encodeToken {ll ml : Nat} (hll : ll < 16) (hml : ml < 16) : tokenML (encodeToken ll ml) = ml := by
  rw [tokenML_eq_mod, encodeToken_toNat hll hml]
  omega

theorem decodeToken_encodeToken {ll ml : Nat} (hll : ll < 16) (hml : ml < 16) :
    decodeToken (encodeToken ll ml) = .lz4Token ll ml := by
  rw [decodeToken, tokenLL_encodeToken hll hml, tokenML_encodeToken hll hml]

theorem encodeToken_tokenLL_tokenML (b : Byte) : encodeToken (tokenLL b) (tokenML b) = b := by
  apply BitVec.eq_of_toNat_eq
  rw [encodeToken_toNat (tokenLL_lt b) (tokenML_lt b), tokenLL_eq_div, tokenML_eq_mod]
  omega

theorem wellFormed_lz4Token {ll ml : Nat} : (Instr.lz4Token ll ml).wellFormed = true ↔ ll < 16 ∧ ml < 16 := by
  simp [Instr.wellFormed]

theorem decodeToken_wellFormed (b : Byte) : (decodeToken b).wellFormed = true :=
  wellFormed_lz4Token.2 ⟨tokenLL_lt b, tokenML_lt b⟩

/-! The statements. -/

/-- Settles O3: a command's code is its own row of the map, and a token's nibbles are read back from their sum. -/
theorem decodeOfEncodeIsTheInstruction : Obligations.DecodeOfEncodeIsTheInstruction := by
  unfold Obligations.DecodeOfEncodeIsTheInstruction
  intro i rest hwf
  cases i with
  | crc32c | crc32cHw | crc32cS16 | crc32cBit | lz4Compress | lz4Decompress => rfl
  | lz4Token ll ml =>
    obtain ⟨hll, hml⟩ := wellFormed_lz4Token.1 hwf
    exact (decode_stream_cons _ rest).trans (by rw [decodeToken_encodeToken hll hml])

/-- Settles O4: what the command port reads is a row of the map, and a token byte is put together again from its nibbles. -/
theorem encodeOfDecodeIsTheBytes : Obligations.EncodeOfDecodeIsTheBytes := by
  unfold Obligations.EncodeOfDecodeIsTheBytes
  intro p bytes rest i h
  cases bytes with
  | nil => rw [decode_nil] at h; cases h
  | cons b tail =>
    cases p with
    | command =>
      obtain ⟨hrow, rfl⟩ := decode_command_cons_eq_ok.1 h
      obtain ⟨hwf, hport, henc⟩ := commandTable_rows _ hrow
      exact ⟨hwf, hport, by rw [henc]; rfl⟩
    | stream =>
      cases h
      refine ⟨decodeToken_wellFormed b, rfl, ?_⟩
      rw [decodeToken, encode, encodeToken_tokenLL_tokenML]
      rfl

/-- Settles O1: each byte is the encoding of the instruction it is listed with, so O3 reads it back. -/
theorem writtenBytesDecode : Obligations.WrittenBytesDecode := by
  have hread (i : Instr) (hwf : i.wellFormed = true) : decode (portOf i) (encode i) = .ok (i, []) := by
    simpa using decodeOfEncodeIsTheInstruction i [] hwf
  exact ⟨hread .crc32c rfl, hread .crc32cHw rfl, hread .crc32cS16 rfl, hread .crc32cBit rfl, hread .lz4Compress rfl,
    hread .lz4Decompress rfl, hread (.lz4Token 4 8) rfl, hread (.lz4Token 1 15) rfl, hread (.lz4Token 15 0) rfl,
    hread (.lz4Token 0 1) rfl⟩

/-- Settles O2: membership in the map, written out row by row. -/
theorem commandMapIsExact : Obligations.CommandMapIsExact := by
  unfold Obligations.CommandMapIsExact
  intro v rest
  refine ⟨fun i => ?_, fun hv => decode_command_cons_of_none (decodeCommand_eq_none_iff.2 hv) rest⟩
  rw [decode_command_cons_eq_ok]
  simp [commandTable]

theorem commandWrite_of_illegal {v : Byte} (h : decodeCommand v = none) (s : State) :
    commandWrite v s = .next (raise .errIllegalOp { s with cmd := v }) := by
  simp only [commandWrite, decode_command_cons_of_none h]

/-- Settles O7: no code of the map lies in the three ranges, so the write ends the command as an illegal one. -/
theorem illegalCodeEndsWithErrIllegalOp : Obligations.IllegalCodeEndsWithErrIllegalOp := by
  unfold Obligations.IllegalCodeEndsWithErrIllegalOp
  intro s v rest hidle hin hv
  have hnone : decodeCommand v = none := by
    rw [decodeCommand_eq_none_iff]
    intro hmem
    simp only [commandTable, List.map_cons, List.map_nil, List.mem_cons, List.not_mem_nil, or_false] at hmem
    rcases hmem with rfl | rfl | rfl | rfl | rfl | rfl <;> simp at hv
  rw [step_of_action hidle hin]
  exact commandWrite_of_illegal hnone (takeAction rest s)

end Sys2Proof.Machine
end

/-! The compressed stream: how lengths are coded, what a match appends, and how a pass reads the bytes of a sequence
(30_encoding.md R69 to R80, 42_lz4_decompress.md R131 to R141). -/
section

namespace Sys2Proof.Machine

/-! Lengths (R71, R80). -/

theorem lenNibble_of_lt {v : Nat} (h : v < 15) : lenNibble v = v := Nat.min_eq_left (Nat.le_of_lt h)

theorem lenNibble_of_ge {v : Nat} (h : 15 ≤ v) : lenNibble v = 15 := Nat.min_eq_right h

theorem lenNibble_lt (v : Nat) : lenNibble v < 16 := Nat.lt_succ_of_le (Nat.min_le_right v 15)

theorem writeExt_of_lt {v : Nat} (h : v < 15) : writeExt v = [] := if_pos h

theorem writeExt_of_ge {v : Nat} (h : 15 ≤ v) :
    writeExt v = List.replicate ((v - 15) / 255) 0xFF#8 ++ [BitVec.ofNat 8 ((v - 15) % 255)] :=
  if_neg (Nat.not_lt.2 h)

theorem readLen_of_lt {nib : Nat} (h : nib < 15) (bs : List Byte) : readLen nib bs = some (nib, bs) :=
  if_neg (Nat.ne_of_lt h)

theorem readLen_fifteen (bs : List Byte) : readLen 15 bs = readExt 15 bs := rfl

theorem readExt_ff (v : Nat) (rest : List Byte) : readExt v (0xFF#8 :: rest) = readExt (v + 255) rest := if_pos rfl

theorem readExt_of_ne {e : Byte} (h : e ≠ 0xFF#8) (v : Nat) (rest : List Byte) :
    readExt v (e :: rest) = some (v + e.toNat, rest) := if_neg h

/-- A run of `q` bytes `FF` counts 255 each, and the byte `r` below 255 ends the extension. -/
theorem readExt_replicate_append (v q : Nat) {r : Nat} (hr : r < 255) (rest : List Byte) :
    readExt v (List.replicate q 0xFF#8 ++ BitVec.ofNat 8 r :: rest) = some (v + 255 * q + r, rest) := by
  induction q generalizing v with
  | zero =>
    have htoNat : (BitVec.ofNat 8 r).toNat = r := by rw [BitVec.toNat_ofNat]; omega
    have hne : BitVec.ofNat 8 r ≠ 0xFF#8 := fun h => by
      have := congrArg BitVec.toNat h
      rw [htoNat] at this
      simp at this
      omega
    rw [List.replicate_zero, List.nil_append, readExt_of_ne hne, htoNat]
    simp
  | succ q ih =>
    rw [List.replicate_succ, List.cons_append, readExt_ff, ih]
    congr 2
    omega

/-- Whatever an extension reads as is a run of `FF` and a last byte below 255, and only one run and byte have that value. -/
theorem readExt_eq_some {v w : Nat} {bs rest : List Byte} (h : readExt v bs = some (w, rest)) :
    v ≤ w ∧ bs = List.replicate ((w - v) / 255) 0xFF#8 ++ BitVec.ofNat 8 ((w - v) % 255) :: rest := by
  induction bs generalizing v with
  | nil => cases h
  | cons e tail ih =>
    by_cases he : e = 0xFF#8
    · subst he
      rw [readExt_ff] at h
      obtain ⟨hle, htail⟩ := ih h
      have hdiff : w - v = (w - (v + 255)) + 255 := by omega
      refine ⟨by omega, ?_⟩
      rw [hdiff, Nat.add_div_right _ (by omega), Nat.add_mod_right, List.replicate_succ, List.cons_append, ← htail]
    · rw [readExt_of_ne he] at h
      cases h
      have hlt : e.toNat < 255 := by
        have := e.isLt
        have : e.toNat ≠ 255 := fun h => he (BitVec.eq_of_toNat_eq h)
        omega
      refine ⟨by omega, ?_⟩
      rw [Nat.add_sub_cancel_left, Nat.div_eq_of_lt hlt, Nat.mod_eq_of_lt hlt, BitVec.ofNat_toNat]
      simp

/-- Reading inverts the coding of a length (R80). -/
theorem readLen_writeExt (v : Nat) (rest : List Byte) : readLen (lenNibble v) (writeExt v ++ rest) = some (v, rest) := by
  by_cases h : v < 15
  · rw [lenNibble_of_lt h, writeExt_of_lt h, List.nil_append, readLen_of_lt h]
  · have hge : 15 ≤ v := by omega
    rw [lenNibble_of_ge hge, writeExt_of_ge hge, List.append_assoc, List.singleton_append, readLen_fifteen,
      readExt_replicate_append 15 _ (Nat.mod_lt _ (by omega))]
    congr 2
    omega

/-- Nothing but the coding of a length reads as that length (R80). -/
theorem readLen_eq_some {nib v : Nat} {bs rest : List Byte} (hnib : nib ≤ 15) (h : readLen nib bs = some (v, rest)) :
    nib = lenNibble v ∧ bs = writeExt v ++ rest := by
  rcases Nat.lt_or_eq_of_le hnib with hlt | rfl
  · rw [readLen_of_lt hlt] at h
    cases h
    rw [lenNibble_of_lt hlt, writeExt_of_lt hlt]
    exact ⟨rfl, rfl⟩
  · rw [readLen_fifteen] at h
    obtain ⟨hge, hbs⟩ := readExt_eq_some h
    rw [lenNibble_of_ge hge, writeExt_of_ge hge, List.append_assoc]
    exact ⟨rfl, hbs⟩

/-- Settles O28: the two forms of a coding, its reading in both directions, and the six examples. -/
theorem lengthCodingIsOneToOne : Obligations.LengthCodingIsOneToOne := by
  unfold Obligations.LengthCodingIsOneToOne
  exact ⟨fun v h => ⟨lenNibble_of_lt h, writeExt_of_lt h⟩, fun v h => ⟨lenNibble_of_ge h, writeExt_of_ge h⟩,
    readLen_writeExt, fun nib bytes v rest => readLen_eq_some, rfl, rfl, rfl, rfl, rfl, rfl⟩

/-! The copy of a match (R76, R140). -/

theorem byteAt_of_prefix {xs ys : List Byte} (h : xs <+: ys) {i : Nat} (hi : i < xs.length) :
    byteAt ys i = byteAt xs i := by
  obtain ⟨zs, rfl⟩ := h
  exact List.getD_append xs zs 0 i hi

theorem byteAt_copyMatch_of_lt (offset n : Nat) {out : List Byte} {i : Nat} (h : i < out.length) :
    byteAt (copyMatch offset n out) i = byteAt out i :=
  byteAt_of_prefix (copyMatch_prefix offset n out) h

/-- Every byte a match appends equals the one `offset` places before it. -/
theorem byteAt_copyMatch_back {offset n i : Nat} {out : List Byte} (h1 : 1 ≤ offset) (h2 : offset ≤ out.length)
    (hlo : out.length ≤ i) (hhi : i < out.length + n) :
    byteAt (copyMatch offset n out) i = byteAt (copyMatch offset n out) (i - offset) := by
  induction n generalizing out with
  | zero => omega
  | succ n ih =>
    rcases Nat.eq_or_lt_of_le hlo with rfl | hlt
    · have hlast : byteAt (out ++ [byteAt out (out.length - offset)]) out.length = byteAt out (out.length - offset) := by
        simp [byteAt]
      rw [byteAt_copyMatch_of_lt offset (n + 1) (i := out.length - offset) (by omega), copyMatch,
        byteAt_copyMatch_of_lt _ _ (by simp), hlast]
    · rw [copyMatch]
      exact ih (by simp; omega) (by simp; omega) (by simp; omega)

/-- The appended bytes run through the last `offset` bytes of the output again and again. -/
theorem byteAt_copyMatch_cyclic {offset n : Nat} {out : List Byte} (h1 : 1 ≤ offset) (h2 : offset ≤ out.length)
    (k : Nat) (hk : k < n) :
    byteAt (copyMatch offset n out) (out.length + k) = byteAt out (out.length - offset + k % offset) := by
  induction k using Nat.strongRecOn with
  | ind k ih =>
    rw [byteAt_copyMatch_back h1 h2 (by omega) (by omega)]
    by_cases hlt : k < offset
    · rw [byteAt_copyMatch_of_lt _ _ (by omega), Nat.mod_eq_of_lt hlt, Nat.sub_add_comm h2]
    · rw [Nat.add_sub_assoc (by omega), ih (k - offset) (by omega) (by omega), ← Nat.mod_eq_sub_mod (by omega)]

/-- Settles O30: a match keeps the output as its front, and each new byte is read `offset` places back. -/
theorem matchCopyRepeatsTheLastBytes : Obligations.MatchCopyRepeatsTheLastBytes := by
  unfold Obligations.MatchCopyRepeatsTheLastBytes
  intro offset n out h1 h2
  exact ⟨copyMatch_length offset n out, fun _ hk => byteAt_copyMatch_of_lt offset n hk,
    fun _ hk => byteAt_copyMatch_back h1 h2 (by omega) (by omega), byteAt_copyMatch_cyclic h1 h2⟩

/-! The size of a stream (R82). -/

theorem writeExt_length (v : Nat) : (writeExt v).length = if v < 15 then 0 else (v - 15) / 255 + 1 := by
  split
  · rw [writeExt_of_lt ‹_›]; rfl
  · rw [writeExt_of_ge (by omega)]; simp

theorem emitSeq_ne_nil (lits : List Byte) (offset mlen : Nat) : emitSeq lits offset mlen ≠ [] := by
  simp [emitSeq]

theorem emitLast_length (lits : List Byte) :
    (emitLast lits).length = lits.length + 1 + (writeExt lits.length).length := by
  rw [emitLast, lastSeq, List.length_append, List.length_cons]
  omega

theorem length_lt_emitLast_length (lits : List Byte) : lits.length < (emitLast lits).length := by
  rw [emitLast_length]
  omega

/-! A compressor that emits nothing (R82). -/

theorem visit_of_no_match {mul : Word} {bs : List Byte} {c : Compressor}
    (h : acceptMatch bs (assocGet c.hash (bucketAt mul bs c.ip)) c.ip = none) :
    visit mul bs c = { c with ip := c.ip + 1, hash := assocPut c.hash (bucketAt mul bs c.ip) c.ip } := by
  simp only [visit, h]

theorem visit_of_match {mul : Word} {bs : List Byte} {c : Compressor} {r : Nat}
    (h : acceptMatch bs (assocGet c.hash (bucketAt mul bs c.ip)) c.ip = some r) :
    visit mul bs c =
      { ip := c.ip + extendMatch bs r c.ip, anchor := c.ip + extendMatch bs r c.ip,
        hash := assocPut c.hash (bucketAt mul bs c.ip) c.ip,
        out := c.out ++ emitSeq (slice bs c.anchor c.ip) (c.ip - r) (extendMatch bs r c.ip) } := by
  simp only [visit, h]

/-- An iteration after which nothing is emitted found no match, so it left the anchor where it was. -/
theorem visit_of_out_eq_nil {mul : Word} {bs : List Byte} {c : Compressor} (h : (visit mul bs c).out = []) :
    c.out = [] ∧ (visit mul bs c).anchor = c.anchor := by
  cases hacc : acceptMatch bs (assocGet c.hash (bucketAt mul bs c.ip)) c.ip with
  | none =>
    rw [visit_of_no_match hacc] at h ⊢
    exact ⟨h, rfl⟩
  | some r =>
    rw [visit_of_match hacc, List.append_eq_nil_iff] at h
    exact absurd h.2 (emitSeq_ne_nil _ _ _)

theorem visitLoop_of_out_eq_nil {mul : Word} {bs : List Byte} (n : Nat) {c : Compressor}
    (h : (visitLoop mul bs n c).out = []) : c.out = [] ∧ (visitLoop mul bs n c).anchor = c.anchor := by
  induction n generalizing c with
  | zero => exact ⟨h, rfl⟩
  | succ n ih =>
    rw [visitLoop] at h ⊢
    split at h
    · obtain ⟨hout, hanchor⟩ := ih h
      obtain ⟨hc, hvisit⟩ := visit_of_out_eq_nil hout
      exact ⟨hc, by rw [if_pos ‹_›, hanchor, hvisit]⟩
    · exact ⟨h, by rw [if_neg ‹_›]⟩

/-- Without a match the complete output is the last sequence of the whole input. -/
theorem deflate_of_no_match {mul : Word} {bs : List Byte} (h : (compressorEnd mul bs).out = []) :
    deflate mul bs = emitLast bs := by
  have hanchor : (compressorEnd mul bs).anchor = 0 := (visitLoop_of_out_eq_nil bs.length h).2
  rw [deflate, completeOutput, h, hanchor, List.nil_append, slice]
  simp

theorem codeByte_eq_ok_iff {c : Code} : codeByte c = 0x01#8 ↔ c = .ok := by
  cases c <;> decide

/-- `OK` says that the complete output fits the capacity and is shorter than the input (R120). -/
theorem execLz4Compress_of_status_ok {s t : State} (ht : exec .lz4Compress s = .next t) (hok : t.status = 0x01#8) :
    (deflate s.platform.hashMul (sourceBytes s)).length ≤ s.cap.toNat ∧
      (deflate s.platform.hashMul (sourceBytes s)).length < s.len.toNat := by
  rcases execLz4Compress_cases s with ⟨-, hc⟩ | ⟨-, _, hcap, hlen, -⟩ | ⟨-, _, -, hc⟩ | ⟨-, _, -, -, hc⟩
  case inr.inl => exact ⟨hcap, hlen⟩
  all_goals
    obtain rfl := Host.Outcome.next.inj (hc.symm.trans ht)
    simp [codeByte_eq_ok_iff] at hok

/-- Settles O29: the sizes are those of `writeExt`, and without a match the complete output is longer than the input, so the
command does not end `OK`. -/
theorem literalOnlyStreamSize : Obligations.LiteralOnlyStreamSize := by
  unfold Obligations.LiteralOnlyStreamSize
  refine ⟨fun lits => ?_, length_lt_emitLast_length, fun s t ht hout => ?_⟩
  · rw [emitLast_length, writeExt_length]
    split <;> omega
  · have hlonger : s.len.toNat < (deflate s.platform.hashMul (sourceBytes s)).length := by
      rw [deflate_of_no_match hout]
      simpa using length_lt_emitLast_length (sourceBytes s)
    intro hok
    obtain ⟨-, hshorter⟩ := execLz4Compress_of_status_ok ht hok
    omega

end Sys2Proof.Machine
end

/-! The reader on the bytes of the grammar: a pass reads a sequence back, so the decompressor's loop gives the meaning of a
stream (30_encoding.md R69 to R77, 42_lz4_decompress.md R131 to R142). -/
section

namespace Sys2Proof.Machine

/-! One pass. -/

theorem le16_ofNat {offset : Nat} (h : offset ≤ maxOffset) :
    le16 (BitVec.ofNat 8 offset) (BitVec.ofNat 8 (offset / 256)) = offset := by
  have : offset ≤ 65535 := h
  simp only [le16, BitVec.toNat_ofNat]
  omega

/-- The literals of a last sequence end the stream (R135). -/
theorem streamPass_lastSeq {cap : Nat} {lits out : List Byte} (h : out.length + lits.length ≤ cap) (ml : Nat) :
    streamPass cap (lenNibble lits.length) ml (writeExt lits.length ++ lits) out = .done (out ++ lits) := by
  simp only [streamPass, readLen_writeExt, lt_irrefl, gt_iff_lt, if_false, if_true]
  rw [if_neg (by omega)]

/-- A coded match that refers back to output that exists, and fits, is copied (R136 to R140). -/
theorem matchPass_emitted {cap offset mlen : Nat} {out : List Byte} (hmin : minMatch ≤ mlen) (h1 : 1 ≤ offset)
    (hmax : offset ≤ maxOffset) (hback : offset ≤ out.length) (hcap : out.length + mlen ≤ cap) (rest : List Byte) :
    matchPass cap (lenNibble (mlen - minMatch))
        (BitVec.ofNat 8 offset :: BitVec.ofNat 8 (offset / 256) :: (writeExt (mlen - minMatch) ++ rest)) out =
      .more rest (copyMatch offset mlen out) := by
  simp only [matchPass, readLen_writeExt, le16_ofNat hmax, Nat.sub_add_cancel hmin]
  rw [if_neg (by omega), if_neg (by omega), if_neg (by omega)]

/-- The bytes of a sequence after its token are read back as its literals and its match (R69). -/
theorem streamPass_emitted {cap offset mlen : Nat} {lits out : List Byte} (hmin : minMatch ≤ mlen) (h1 : 1 ≤ offset)
    (hmax : offset ≤ maxOffset) (hback : offset ≤ out.length + lits.length)
    (hcap : out.length + lits.length + mlen ≤ cap) (rest : List Byte) :
    streamPass cap (lenNibble lits.length) (lenNibble (mlen - minMatch))
        (writeExt lits.length ++ lits ++ [BitVec.ofNat 8 offset, BitVec.ofNat 8 (offset / 256)] ++
          writeExt (mlen - minMatch) ++ rest) out =
      .more rest (copyMatch offset mlen (out ++ lits)) := by
  have hmatch := matchPass_emitted (out := out ++ lits) hmin h1 hmax (by simpa using hback) (by simpa using hcap) rest
  simp only [List.append_assoc, List.cons_append, List.nil_append, streamPass, readLen_writeExt]
  rw [if_neg (by simp), if_neg (by omega), if_neg (by simp), List.drop_left, List.take_left, hmatch]

/-! The loop. -/

theorem inflateLoop_of_more {cap n ll ml : Nat} {rest out rest' out' : List Byte} (hll : ll < 16) (hml : ml < 16)
    (h : streamPass cap ll ml rest out = .more rest' out') :
    inflateLoop cap (n + 1) (encodeToken ll ml :: rest) out = inflateLoop cap n rest' out' := by
  rw [inflateLoop, tokenLL_encodeToken hll hml, tokenML_encodeToken hll hml, h]

theorem inflateLoop_of_done {cap n ll ml : Nat} {rest out out' : List Byte} (hll : ll < 16) (hml : ml < 16)
    (h : streamPass cap ll ml rest out = .done out') :
    inflateLoop cap (n + 1) (encodeToken ll ml :: rest) out = .ok out' := by
  rw [inflateLoop, tokenLL_encodeToken hll hml, tokenML_encodeToken hll hml, h]

theorem streamBytes_cons (q : Sequence) (body : List Sequence) (tail : List Byte) (ml : Nat) :
    streamBytes ⟨q :: body, tail, ml⟩ = emitSeq q.lits q.offset q.mlen ++ streamBytes ⟨body, tail, ml⟩ := by
  simp [streamBytes]

theorem applySeq_length (out : List Byte) (q : Sequence) :
    (applySeq out q).length = out.length + q.lits.length + q.mlen := by
  simp [applySeq]

theorem length_le_foldl_applySeq (body : List Sequence) (out : List Byte) :
    out.length ≤ (body.foldl applySeq out).length := by
  induction body generalizing out with
  | nil => rfl
  | cons q body ih =>
    have hq := applySeq_length out q
    have hbody := ih (applySeq out q)
    rw [List.foldl_cons]
    omega

/-- The loop reads the sequences of a valid stream one by one, and ends with the output they build up (R76, R131). -/
theorem inflateLoop_streamBytes {cap n ml : Nat} {body : List Sequence} {tail out : List Byte} (hml : ml < 16)
    (hvalid : bodyValid out body) (hcap : (body.foldl applySeq out).length + tail.length ≤ cap)
    (hn : (streamBytes ⟨body, tail, ml⟩).length < n) :
    inflateLoop cap n (streamBytes ⟨body, tail, ml⟩) out = .ok (body.foldl applySeq out ++ tail) := by
  induction n generalizing body out with
  | zero => omega
  | succ n ih =>
    cases body with
    | nil => exact inflateLoop_of_done (lenNibble_lt _) hml (streamPass_lastSeq hcap ml)
    | cons q body =>
      obtain ⟨hmin, h1, hmax, hback, hrest⟩ := hvalid
      have hfits : out.length + q.lits.length + q.mlen ≤ cap := by
        have := applySeq_length out q
        have := length_le_foldl_applySeq body (applySeq out q)
        rw [List.foldl_cons] at hcap
        omega
      have hshorter : (streamBytes ⟨body, tail, ml⟩).length < n := by
        have := List.length_pos_of_ne_nil (emitSeq_ne_nil q.lits q.offset q.mlen)
        rw [streamBytes_cons, List.length_append] at hn
        omega
      rw [streamBytes_cons]
      exact (inflateLoop_of_more (lenNibble_lt _) (lenNibble_lt _)
        (streamPass_emitted hmin h1 hmax hback hfits _)).trans (ih hrest hcap hshorter)

/-- On a valid stream whose output fits, the decompressor gives what the stream denotes (R142). -/
theorem inflate_of_denotes {cap : Nat} {bs d : List Byte} (h : Denotes bs d) (hcap : d.length ≤ cap) :
    inflate cap bs = .ok d := by
  obtain ⟨⟨body, tail, ml⟩, hvalid, hml, rfl, rfl⟩ := h
  exact inflateLoop_streamBytes (Nat.lt_succ_of_le hml) hvalid (by simpa [streamMeaning] using hcap)
    (Nat.lt_succ_self _)

/-- Settles O38: with room for either output, the decompressor gives both. -/
theorem streamsHaveOneMeaning : Obligations.StreamsHaveOneMeaning := by
  unfold Obligations.StreamsHaveOneMeaning
  intro bytes d d' h h'
  have hd := inflate_of_denotes h (Nat.le_max_left d.length d'.length)
  have hd' := inflate_of_denotes h' (Nat.le_max_right d.length d'.length)
  exact Except.ok.inj (hd.symm.trans hd')

/-! The token as an instruction. -/

theorem exec_lz4Token_of_open {s : State} {ip op : Nat} (h : openStream s = some (ip, op)) (ll ml : Nat) :
    exec (.lz4Token ll ml) s = .next (endPass op
      (streamPass s.cap.toNat ll ml ((sourceBytes s).drop ip) (memReadBytes s.mem s.dst.toNat op)) s) := by
  simp only [exec, execLz4Token, h]

theorem finishOutput_result_toNat {out : List Byte} {s : State} (h : out.length ≤ s.cap.toNat) :
    (finishOutput out s).result.toNat = out.length := by
  have := s.cap.isLt
  rw [finishOutput_result, BitVec.toNat_ofNat, Nat.mod_eq_of_lt (by omega)]

/-- Settles O32: the pass ends the stream with the old output and the literals, which is what the end of the command stores. -/
theorem lastTokenEndsTheCommand : Obligations.LastTokenEndsTheCommand := by
  unfold Obligations.LastTokenEndsTheCommand
  intro s ip op ml lits hengine hrange hip hop hbytes hcap
  have hexec := exec_lz4Token_of_open (openStream_eq_some.2 ⟨hengine, hrange, hip, hop⟩) (lenNibble lits.length) ml
  rw [hbytes, streamPass_lastSeq (by simpa using hcap)] at hexec
  have hlen : (memReadBytes s.mem s.dst.toNat op ++ lits).length = op + lits.length := by simp
  have hout : (memReadBytes s.mem s.dst.toNat op ++ lits).length ≤ s.cap.toNat := hlen ▸ hcap
  have hresult := finishOutput_result_toNat hout
  refine ⟨_, hexec, rfl, hresult.trans hlen, rfl, ?_, endInflate_memory (r := .ok _) hout⟩
  rw [← hlen, ← hresult]
  exact finishOutput_output hout

/-- Settles O35: a token opens a stream only where the engine is decompressing. -/
theorem tokenOutsideAStreamIsRefused : Obligations.TokenOutsideAStreamIsRefused := by
  unfold Obligations.TokenOutsideAStreamIsRefused
  intro s ll ml hengine
  rcases execLz4Token_cases ll ml s with ⟨-, hc⟩ | ⟨ip, op, hopen, -⟩
  · exact hc
  · exact absurd (openStream_eq_some.1 hopen).1 (hengine ip op)

end Sys2Proof.Machine
end

/-! The checksum as a function of the bytes: what the tables hold, that every mixture of steps is the byte fold, its linearity
and its residue (40_crc32c.md R93, R95, R103, R104). -/
section

namespace Sys2Proof.Machine

/-- Settles O14: the fold over the nine bytes, run. -/
theorem checkValueOfTheSource : Obligations.CheckValueOfTheSource := by
  unfold Obligations.CheckValueOfTheSource
  decide +kernel

/-! The tables (R95). -/

theorem wordByte_zero_toNat (w : Word) : (wordByte w 0).toNat = w.toNat % 256 := by
  simp [wordByte]

/-- A zero byte moves the register on and adds nothing to it. -/
theorem crcRaw_zeroBytes (k : Nat) (c : Word) : crcRaw c (List.replicate k 0) = bitSteps (8 * k) c := by
  induction k generalizing c with
  | zero => rfl
  | succ k ih =>
    have hstep : byteStep c 0 = bitSteps 8 c := by simp [byteStep]
    rw [List.replicate_succ, crcRaw_cons, ih, hstep, ← bitSteps_add, Nat.mul_succ, Nat.add_comm]

theorem tableAt_crcTables_zeroBytes {k i : Nat} (hk : k < 16) (hi : i < 256) :
    tableAt crcTables k i = crcRaw 0 (BitVec.ofNat 8 i :: List.replicate k 0) := by
  have hbyte : (BitVec.ofNat 8 i).setWidth 32 = BitVec.ofNat 32 i := by
    apply BitVec.eq_of_toNat_eq
    simp [Nat.mod_eq_of_lt hi]
  have hfirst : byteStep 0 (BitVec.ofNat 8 i) = bitSteps 8 (BitVec.ofNat 32 i) := by simp [byteStep, hbyte]
  rw [tableAt_crcTables hk hi, crcRaw_cons, crcRaw_zeroBytes, hfirst, ← bitSteps_add, Nat.mul_succ, Nat.add_comm]

theorem tableAt_crcTables_succ {k i : Nat} (hk : k < 15) (hi : i < 256) :
    tableAt crcTables (k + 1) i =
      (tableAt crcTables k i >>> 8) ^^^ tableAt crcTables 0 ((tableAt crcTables k i).toNat % 256) := by
  rw [← wordByte_zero_toNat, tableAt_crcTables_byte (by omega), ← bitSteps_eight, tableAt_crcTables (by omega) hi,
    tableAt_crcTables (by omega) hi, ← bitSteps_add, Nat.mul_succ 8 (k + 1)]

/-- Settles O15: each table is the one before it moved on by a zero byte; the samples are runs of the bit step. -/
theorem tableContents : Obligations.TableContents := by
  unfold Obligations.TableContents
  refine ⟨fun i hi => tableAt_crcTables (by omega) hi, fun k hk i hi => tableAt_crcTables_succ hk hi,
    fun k hk i hi => tableAt_crcTables_zeroBytes hk hi, ?_⟩
  refine ⟨?_, ?_, ?_, ?_, ?_, ?_, ?_, ?_⟩ <;> rw [tableAt_crcTables (by omega) (by omega)] <;> decide +kernel

/-! Mixtures of steps (R103). -/

/-- Settles O16: the look-up is the slicing strategy's tail step. -/
theorem byteStepIsATableLookup : Obligations.ByteStepIsATableLookup := by
  unfold Obligations.ByteStepIsATableLookup
  exact fun c b => (sliceTail_crcTables c b).symm

/-- Settles O17: four word look-ups, each the byte steps of its word. -/
theorem blockStepIsSixteenByteSteps : Obligations.BlockStepIsSixteenByteSteps := by
  unfold Obligations.BlockStepIsSixteenByteSteps
  exact fun c _ h => sliceBlock_crcTables c h

/-- The step over a chunk of 16, 8 or 1 bytes (R103). -/
def chunkStep (c : Word) (k : List Byte) : Word :=
  if k.length = 16 then sliceBlock crcTables c k
  else if k.length = 8 then qwordStep c (le64At k 0)
  else sliceTail crcTables c (byteAt k 0)

theorem qwordStep_le64At (c : Word) {bs : List Byte} (h : bs.length = 8) : qwordStep c (le64At bs 0) = crcRaw c bs := by
  match bs, h with
  | [b0, b1, b2, b3, b4, b5, b6, b7], _ => exact qwordStep_le64 c b0 b1 b2 b3 b4 b5 b6 b7

theorem chunkStep_eq_crcRaw (c : Word) {k : List Byte} (h : k.length = 1 ∨ k.length = 8 ∨ k.length = 16) :
    chunkStep c k = crcRaw c k := by
  unfold chunkStep
  rcases h with h | h | h
  · obtain ⟨b, rfl⟩ := List.length_eq_one_iff.1 h
    exact sliceTail_crcTables c b
  · rw [if_neg (by omega), if_pos h, qwordStep_le64At c h]
  · rw [if_pos h, sliceBlock_crcTables c h]

/-- Settles O18: each chunk's step is the byte fold of the chunk, and folds over the parts make the fold over the whole. -/
theorem anyMixtureOfStepsIsTheByteFold : Obligations.AnyMixtureOfStepsIsTheByteFold := by
  unfold Obligations.AnyMixtureOfStepsIsTheByteFold
  intro c chunks h
  calc chunks.foldl chunkStep c
    _ = chunks.foldl crcRaw c := List.foldl_ext _ _ _ fun c k hk => chunkStep_eq_crcRaw c (h k hk)
    _ = crcRaw c chunks.flatten := List.foldl_flatten.symm

/-! Linearity and the residue (R104). -/

theorem byteStep_xor (c d : Word) (a b : Byte) : byteStep (c ^^^ d) (a ^^^ b) = byteStep c a ^^^ byteStep d b := by
  simp only [byteStep, BitVec.setWidth_xor, ← bitSteps_xor]
  ac_rfl

theorem crcRaw_xor (c d : Word) {x y : List Byte} (h : x.length = y.length) :
    crcRaw (c ^^^ d) (List.zipWith (fun a b => a ^^^ b) x y) = crcRaw c x ^^^ crcRaw d y := by
  induction x generalizing c d y with
  | nil => obtain rfl := List.length_eq_zero_iff.1 h.symm; rfl
  | cons a x ih =>
    match y, h with
    | b :: y, h =>
      rw [List.zipWith_cons_cons, crcRaw_cons, byteStep_xor, ih _ _ (Nat.succ.inj h)]
      rfl

/-- Settles O19: the zero register is the sum of two zero registers. -/
theorem crcRawIsLinear : Obligations.CrcRawIsLinear := by
  unfold Obligations.CrcRawIsLinear
  exact fun _ _ h => crcRaw_xor 0 0 h

/-- Settles O20: the bytes of the checksum cancel the register they follow, but for the final XOR. -/
theorem checksumResidue : Obligations.ChecksumResidue := by
  unfold Obligations.ChecksumResidue
  intro s
  have hcancel : crcRaw crcInit s ^^^ crc32c s = crcXorOut := by
    rw [crc32c, ← BitVec.xor_assoc, BitVec.xor_self, BitVec.zero_xor]
  conv_lhs => rw [crc32c, crcRaw_append, crcRaw_le32, le32_wordByte, hcancel]
  decide

end Sys2Proof.Machine
end

/-! The checksum commands as updates of the state: the value, the tables and the selection they leave, and what they leave
alone (40_crc32c.md R90, R94 to R102). -/
section

namespace Sys2Proof.Machine

/-! What each body does. -/

theorem ensureTables_eq {s : State} (h : TablesBuilt s) :
    ensureTables s = { s with tables := crcTables, tablesReady := true } := by
  unfold ensureTables
  split
  · next hready => rw [← h hready, ← hready]
  · rfl

theorem bodyBit_eq (s : State) : bodyBit s = setCrc (crcRaw s.crc (sourceBytes s)) s := by
  rw [bodyBit, crcBitwise_eq_crcRaw]

theorem bodyHw_eq (s : State) : bodyHw s = setCrc (crcRaw s.crc (sourceBytes s)) s := by
  rw [bodyHw, crcQwords_eq_crcRaw]

theorem bodyS16_eq {s : State} (h : TablesBuilt s) :
    bodyS16 s = setCrc (crcRaw s.crc (sourceBytes s)) { s with tables := crcTables, tablesReady := true } := by
  simp only [bodyS16, ensureTables_eq h, crcSlicing_crcTables]
  rfl

theorem chooseSel_of_hw {s : State} (h : s.sel = .hw ∨ (s.sel = .unset ∧ s.platform.hwCrcAvailable = true)) :
    chooseSel s = .hw := by
  rcases h with hsel | ⟨hsel, havail⟩
  · simp only [chooseSel, hsel]
  · simp only [chooseSel, hsel, havail, if_true]

theorem chooseSel_of_s16 {s : State} (h : s.sel = .s16 ∨ (s.sel = .unset ∧ s.platform.hwCrcAvailable = false)) :
    chooseSel s = .s16 := by
  rcases h with hsel | ⟨hsel, havail⟩
  · simp only [chooseSel, hsel]
  · simp [chooseSel, hsel, havail]

theorem bodySelected_of_hw {s : State} (h : chooseSel s = .hw) :
    bodySelected s = setCrc (crcRaw s.crc (sourceBytes s)) (setSel .hw s) := by
  simp only [bodySelected, h]
  exact bodyHw_eq (setSel .hw s)

theorem bodySelected_of_s16 {s : State} (h : chooseSel s = .s16) (hbuilt : TablesBuilt s) :
    bodySelected s = setCrc (crcRaw s.crc (sourceBytes s))
      { setSel .s16 s with tables := crcTables, tablesReady := true } := by
  simp only [bodySelected, h]
  exact bodyS16_eq (s := setSel .s16 s) hbuilt

/-! The commands on a region in range (R90). -/

/-- A body that leaves the byte fold in the accumulator of `u` makes a command that leaves `u` with the checksum. -/
theorem crcFrame_of_body {body : State → State} {s u : State} (hs : sourceOk s = true)
    (hbody : body (setCrc crcInit s) = setCrc (crcRaw crcInit (sourceBytes s)) u) :
    crcFrame true body s = { u with
      crc := crcRaw crcInit (sourceBytes s), result := crc32c (sourceBytes s), status := codeByte .ok } := by
  simp only [crcFrame, hs, hbody, if_true]
  rfl

/-- Settles O21: the body changes the accumulator only. -/
theorem crc32cBitWritesTheChecksum : Obligations.Crc32cBitWritesTheChecksum := by
  unfold Obligations.Crc32cBitWritesTheChecksum
  intro s hs
  exact congrArg Host.Outcome.next (crcFrame_of_body (u := s) hs (bodyBit_eq (setCrc crcInit s)))

/-- Settles O22: where the strategy is available the frame runs the body, which changes the accumulator only. -/
theorem crc32cHwWritesTheChecksum : Obligations.Crc32cHwWritesTheChecksum := by
  unfold Obligations.Crc32cHwWritesTheChecksum
  intro s hs havail
  rw [exec, execCrc32cHw, havail]
  exact congrArg Host.Outcome.next (crcFrame_of_body (u := s) hs (bodyHw_eq (setCrc crcInit s)))

/-- Settles O23: the body builds the tables if need be, and they hold what R95 says either way. -/
theorem crc32cS16WritesTheChecksum : Obligations.Crc32cS16WritesTheChecksum := by
  unfold Obligations.Crc32cS16WritesTheChecksum
  intro s hs hbuilt
  exact congrArg Host.Outcome.next (crcFrame_of_body (u := { s with tables := crcTables, tablesReady := true }) hs
    (bodyS16_eq (s := setCrc crcInit s) hbuilt))

/-- Settles O24: the selection picks one of the two bodies and is cached before it runs. -/
theorem crc32cWritesTheChecksum : Obligations.Crc32cWritesTheChecksum := by
  unfold Obligations.Crc32cWritesTheChecksum
  intro s hs hbuilt
  constructor
  · intro hsel
    have hchoose : chooseSel (setCrc crcInit s) = .hw := chooseSel_of_hw hsel
    exact congrArg Host.Outcome.next (crcFrame_of_body (u := setSel .hw s) hs (bodySelected_of_hw hchoose))
  · intro hsel
    have hchoose : chooseSel (setCrc crcInit s) = .s16 := chooseSel_of_s16 hsel
    exact congrArg Host.Outcome.next (crcFrame_of_body
      (u := { setSel .s16 s with tables := crcTables, tablesReady := true }) hs (bodySelected_of_s16 hchoose hbuilt))

/-- Settles O25: the frame refuses the command before its body. -/
theorem hwCommandIsRefusedWhereUnavailable : Obligations.HwCommandIsRefusedWhereUnavailable := by
  unfold Obligations.HwCommandIsRefusedWhereUnavailable
  intro s hs havail
  rw [exec, execCrc32cHw, havail, crcFrame, hs]
  rfl

/-! One value for one byte string (R102). -/

theorem crcFrame_ok {body : State → State} (hbody : ComputesCrc body) {s : State} (hbuilt : TablesBuilt s)
    (hs : sourceOk s = true) :
    (crcFrame true body s).status = codeByte .ok ∧ (crcFrame true body s).result = crc32c (sourceBytes s) := by
  rw [crcFrame_status, crcFrame_result hbody true hbuilt, hs]
  exact ⟨rfl, rfl⟩

/-- Each checksum command that may run ends `OK` with the checksum of its source bytes. -/
theorem exec_checksum_ok {i : Instr} (hi : i ∈ checksumCommands) {s : State} (hbuilt : TablesBuilt s)
    (hs : sourceOk s = true) (havail : i = .crc32cHw → s.platform.hwCrcAvailable = true) :
    ∃ t, exec i s = .next t ∧ t.status = codeByte .ok ∧ t.result = crc32c (sourceBytes s) := by
  simp only [checksumCommands, List.mem_cons, List.not_mem_nil, or_false] at hi
  rcases hi with rfl | rfl | rfl | rfl
  · exact ⟨_, rfl, crcFrame_ok bodySelected_computesCrc hbuilt hs⟩
  · refine ⟨_, rfl, ?_⟩
    rw [havail rfl]
    exact crcFrame_ok bodyHw_computesCrc hbuilt hs
  · exact ⟨_, rfl, crcFrame_ok bodyS16_computesCrc hbuilt hs⟩
  · exact ⟨_, rfl, crcFrame_ok bodyBit_computesCrc hbuilt hs⟩

/-- Settles O26: both commands leave the checksum of the same bytes. -/
theorem strategiesAgree : Obligations.StrategiesAgree := by
  unfold Obligations.StrategiesAgree
  intro s t i j hi hj hbs hbt hs ht havs havt hsource
  obtain ⟨s', hexs, hstatus, hresult⟩ := exec_checksum_ok hi hbs hs havs
  obtain ⟨t', hext, hstatus', hresult'⟩ := exec_checksum_ok hj hbt ht havt
  exact ⟨s', t', hexs, hext, hstatus, hstatus', by rw [hresult, hresult', hsource]⟩

/-! What the commands leave unchanged (R101). -/

/-- The state with every field blanked that some checksum command may change. -/
def blankChecksum (s : State) : State :=
  { s with crc := 0, result := 0, status := 0, tables := [], tablesReady := false, sel := .unset }

/-- A part `f` of the state that holds neither the accumulator nor the outcome is kept if the body keeps it. -/
theorem crcFrame_keeps {α : Type} {f : State → α}
    (hf : ∀ (s : State) crc result status, f { s with crc := crc, result := result, status := status } = f s)
    {body : State → State} (hbody : ∀ u, f (body u) = f u) (available : Bool) (s : State) :
    f (crcFrame available body s) = f s := by
  rcases crcFrame_cases available body s with ⟨-, hc⟩ | ⟨-, -, hc⟩ | ⟨-, -, hc⟩ <;> rw [hc]
  · exact hf s s.crc 0 _
  · exact hf s s.crc 0 _
  · calc f (finishOk _ (body (setCrc crcInit s)))
      _ = f (body (setCrc crcInit s)) := hf _ (body (setCrc crcInit s)).crc _ _
      _ = f (setCrc crcInit s) := hbody _
      _ = f s := hf s crcInit s.result s.status

theorem bodyS16_blankChecksum (s : State) : blankChecksum (bodyS16 s) = blankChecksum s := by
  simp only [bodyS16, ensureTables]
  split <;> rfl

theorem bodySelected_blankChecksum (s : State) : blankChecksum (bodySelected s) = blankChecksum s := by
  rcases bodySelected_cases s with ⟨-, hb⟩ | ⟨-, hb⟩ <;> rw [hb]
  · rfl
  · exact bodyS16_blankChecksum (setSel .s16 s)

theorem exec_checksum_blankChecksum {i : Instr} (hi : i ∈ checksumCommands) {s t : State} (ht : exec i s = .next t) :
    blankChecksum t = blankChecksum s := by
  simp only [checksumCommands, List.mem_cons, List.not_mem_nil, or_false] at hi
  rcases hi with rfl | rfl | rfl | rfl <;> cases ht
  · exact crcFrame_keeps (fun _ _ _ _ => rfl) bodySelected_blankChecksum _ s
  · exact crcFrame_keeps (body := bodyHw) (fun _ _ _ _ => rfl) (fun _ => rfl) _ s
  · exact crcFrame_keeps (fun _ _ _ _ => rfl) bodyS16_blankChecksum _ s
  · exact crcFrame_keeps (body := bodyBit) (fun _ _ _ _ => rfl) (fun _ => rfl) _ s

theorem sameLazyState_iff {s t : State} :
    SameLazyState s t ↔ (t.tables, t.tablesReady, t.sel) = (s.tables, s.tablesReady, s.sel) := by
  simp only [SameLazyState, Prod.mk.injEq]

theorem crcFrame_sameLazyState {body : State → State} (hbody : ∀ u, SameLazyState u (body u)) (available : Bool)
    (s : State) : SameLazyState s (crcFrame available body s) :=
  sameLazyState_iff.2 (crcFrame_keeps (f := fun u => (u.tables, u.tablesReady, u.sel)) (fun _ _ _ _ => rfl)
    (fun u => sameLazyState_iff.1 (hbody u)) available s)

/-- Settles O27: every field outside the blanked ones is as before; of the lazy state, the body tells what it keeps. -/
theorem checksumCommandsFrame : Obligations.ChecksumCommandsFrame := by
  unfold Obligations.ChecksumCommandsFrame
  intro s t i hi ht
  have hblank : blankChecksum t = blankChecksum s := exec_checksum_blankChecksum hi ht
  have hkept {α : Type} (f : State → α) : f (blankChecksum t) = f (blankChecksum s) := congrArg f hblank
  refine ⟨⟨hkept State.cmd, hkept State.src, hkept State.len, hkept State.dst, hkept State.cap⟩,
    ⟨hkept State.platform, hkept State.inbox⟩, fun a => hkept fun u => memRead u.mem a, hkept State.hash,
    hkept State.engine, hkept State.draws, ?_, ?_⟩
  · rintro (rfl | rfl) <;> cases ht
    · exact crcFrame_sameLazyState (body := bodyHw) (fun _ => ⟨rfl, rfl, rfl⟩) _ s
    · exact crcFrame_sameLazyState (body := bodyBit) (fun _ => ⟨rfl, rfl, rfl⟩) _ s
  · rintro rfl
    cases ht
    exact crcFrame_keeps (f := State.sel) (body := bodyS16) (fun _ _ _ _ => rfl) (fun u => ensureTables_sel u) _ s

end Sys2Proof.Machine
end

/-! The matches of the reference compressor: the hash that finds a candidate, its acceptance, and its extension
(41_lz4_compress.md R113 to R116). -/
section

namespace Sys2Proof.Machine

theorem hashWord_eq (mul v : Word) : hashWord mul v = v.toNat * mul.toNat % 2 ^ 32 / 2 ^ 16 := by
  rw [hashWord, BitVec.toNat_ushiftRight, BitVec.toNat_mul, Nat.shiftRight_eq_div_pow]

/-- Settles O40: the hash in arithmetic, on the sum that `LE32` is. -/
theorem hashOfFourBytes : Obligations.HashOfFourBytes := by
  unfold Obligations.HashOfFourBytes
  refine ⟨fun mul b0 b1 b2 b3 => by rw [hashWord_eq, le32_toNat], fun mul v => ?_, rfl, rfl, rfl, rfl⟩
  rw [hashWord_eq]
  omega

/-! Bytes of a part of a byte string. -/

theorem byteAt_drop (bs : List Byte) (i k : Nat) : byteAt (bs.drop i) k = byteAt bs (i + k) := by
  simp [byteAt]

theorem byteAt_take {bs : List Byte} {n k : Nat} (h : k < n) : byteAt (bs.take n) k = byteAt bs k := by
  simp [byteAt, h]

theorem take_concat_byteAt {bs : List Byte} {n : Nat} (h : n < bs.length) :
    bs.take n ++ [byteAt bs n] = bs.take (n + 1) := by
  rw [byteAt, List.getD_eq_getElem _ _ h, List.take_append_getElem]

theorem take_append_slice (bs : List Byte) {anchor ip : Nat} (h : anchor ≤ ip) :
    bs.take anchor ++ slice bs anchor ip = bs.take ip := by
  rw [slice, ← List.take_add, Nat.add_sub_cancel' h]

/-! The common front of two byte strings. -/

theorem commonPrefix_le_length (as bs : List Byte) :
    commonPrefix as bs ≤ as.length ∧ commonPrefix as bs ≤ bs.length := by
  fun_induction commonPrefix as bs with
  | case1 a as bs ih => simpa using ih
  | case2 => simp
  | case3 => simp

theorem byteAt_of_lt_commonPrefix {as bs : List Byte} {k : Nat} (h : k < commonPrefix as bs) :
    byteAt as k = byteAt bs k := by
  fun_induction commonPrefix as bs generalizing k with
  | case1 a as bs ih =>
    cases k with
    | zero => rfl
    | succ k => exact ih (Nat.lt_of_succ_lt_succ h)
  | case2 => simp at h
  | case3 => simp at h

/-- The common front stops only where a byte differs or one of the two strings ends. -/
theorem commonPrefix_maximal (as bs : List Byte) :
    commonPrefix as bs = min as.length bs.length ∨
      byteAt as (commonPrefix as bs) ≠ byteAt bs (commonPrefix as bs) := by
  fun_induction commonPrefix as bs with
  | case1 a as bs ih => simpa [byteAt, Nat.succ_min_succ] using ih
  | case2 a as b bs hne => exact .inr hne
  | case3 as bs hshort =>
    left
    cases as with
    | nil => simp
    | cons a as =>
      cases bs with
      | nil => simp
      | cons b bs => exact absurd rfl (hshort a as b bs rfl)

/-! Acceptance and extension. -/

/-- An accepted candidate is the bucket's, lies in the window, and agrees on four bytes (R115). -/
theorem acceptMatch_eq_some {bs : List Byte} {ref : Option Nat} {ip r : Nat} (h : acceptMatch bs ref ip = some r) :
    ref = some r ∧ ip - r ≤ maxOffset ∧ ∀ k < minMatch, byteAt bs (r + k) = byteAt bs (ip + k) := by
  unfold acceptMatch at h
  split at h
  · cases h
  · obtain ⟨⟨hwindow, hfour⟩, heq⟩ := Option.ite_none_right_eq_some.1 h
    cases heq
    refine ⟨rfl, hwindow, fun k hk => ?_⟩
    rw [← byteAt_drop, ← byteAt_take hk, hfour, byteAt_take hk, byteAt_drop]

theorem minMatch_le_extendMatch (bs : List Byte) (r ip : Nat) : minMatch ≤ extendMatch bs r ip :=
  Nat.le_add_right _ _

theorem extendMatch_le {bs : List Byte} {ip : Nat} (h : ip + minMatch ≤ bs.length) (r : Nat) :
    ip + extendMatch bs r ip ≤ bs.length := by
  obtain ⟨-, hle⟩ := commonPrefix_le_length (bs.drop (r + minMatch)) (bs.drop (ip + minMatch))
  rw [List.length_drop] at hle
  rw [extendMatch]
  omega

/-- A match repeats the bytes at the earlier position (R116). -/
theorem byteAt_of_lt_extendMatch {bs : List Byte} {r ip k : Nat}
    (hfour : ∀ k < minMatch, byteAt bs (r + k) = byteAt bs (ip + k)) (hk : k < extendMatch bs r ip) :
    byteAt bs (r + k) = byteAt bs (ip + k) := by
  by_cases h : k < minMatch
  · exact hfour k h
  · obtain ⟨j, rfl⟩ := Nat.exists_eq_add_of_le (Nat.le_of_not_lt h)
    have hmore := byteAt_of_lt_commonPrefix (Nat.lt_of_add_lt_add_left hk)
    rwa [byteAt_drop, byteAt_drop, Nat.add_assoc, Nat.add_assoc] at hmore

/-- A match stops at the end of the input, which the later position reaches first, or at a byte that differs. -/
theorem extendMatch_maximal {bs : List Byte} {r ip : Nat} (hr : r < ip) (h : ip + minMatch ≤ bs.length) :
    ip + extendMatch bs r ip = bs.length ∨
      byteAt bs (r + extendMatch bs r ip) ≠ byteAt bs (ip + extendMatch bs r ip) := by
  rcases commonPrefix_maximal (bs.drop (r + minMatch)) (bs.drop (ip + minMatch)) with hend | hdiffer
  · left
    rw [extendMatch, hend, List.length_drop, List.length_drop]
    omega
  · right
    rwa [byteAt_drop, byteAt_drop, Nat.add_assoc, Nat.add_assoc] at hdiffer

/-- Settles O41: an extension is four bytes and the common front of what follows them. -/
theorem matchesAreMaximal : Obligations.MatchesAreMaximal := by
  unfold Obligations.MatchesAreMaximal
  intro bs r ip hr hip hfour
  exact ⟨minMatch_le_extendMatch bs r ip, extendMatch_le hip r, fun _ hk => byteAt_of_lt_extendMatch hfour hk,
    extendMatch_maximal hr hip⟩

end Sys2Proof.Machine
end

/-! The reference compressor's loop: after every iteration the sequences emitted so far are valid and denote the input up to the
anchor, so the complete output denotes the input; its size (41_lz4_compress.md R111 to R122). -/
section

namespace Sys2Proof.Machine

/-! Sequences added at the end. -/

theorem bodyValid_concat {out : List Byte} {body : List Sequence} {q : Sequence} (h : bodyValid out body)
    (hmin : minMatch ≤ q.mlen) (h1 : 1 ≤ q.offset) (hmax : q.offset ≤ maxOffset)
    (hback : q.offset ≤ (body.foldl applySeq out).length + q.lits.length) : bodyValid out (body ++ [q]) := by
  induction body generalizing out with
  | nil => exact ⟨hmin, h1, hmax, hback, trivial⟩
  | cons p body ih =>
    obtain ⟨hpmin, hp1, hpmax, hpback, hrest⟩ := h
    exact ⟨hpmin, hp1, hpmax, hpback, ih hrest hback⟩

theorem bodyValid_mem {out : List Byte} {body : List Sequence} {q : Sequence} (h : bodyValid out body)
    (hq : q ∈ body) : 1 ≤ q.offset ∧ q.offset ≤ maxOffset ∧ minMatch ≤ q.mlen := by
  induction body generalizing out with
  | nil => simp at hq
  | cons p body ih =>
    obtain ⟨hmin, h1, hmax, -, hrest⟩ := h
    rcases List.mem_cons.1 hq with rfl | hq
    · exact ⟨h1, hmax, hmin⟩
    · exact ih hrest hq

/-- Where the input repeats at `ip` what stands at `r`, copying from `r` rebuilds the input, also where the match runs into
its own text (R116). -/
theorem copyMatch_take {bs : List Byte} {r ip n : Nat} (hr : r < ip) (hn : ip + n ≤ bs.length)
    (hagree : ∀ k < n, byteAt bs (r + k) = byteAt bs (ip + k)) :
    copyMatch (ip - r) n (bs.take ip) = bs.take (ip + n) := by
  induction n generalizing r ip with
  | zero => rfl
  | succ n ih =>
    have hlen : (bs.take ip).length - (ip - r) = r := by
      rw [List.length_take]
      omega
    have hfirst : byteAt bs r = byteAt bs ip := hagree 0 (Nat.succ_pos n)
    have hrest : ∀ k < n, byteAt bs (r + 1 + k) = byteAt bs (ip + 1 + k) := fun k hk => by
      simpa only [Nat.add_right_comm _ 1 k, Nat.add_assoc] using hagree (k + 1) (by omega)
    have hcopy := ih (r := r + 1) (ip := ip + 1) (by omega) (by omega) hrest
    rw [Nat.add_sub_add_right] at hcopy
    rw [copyMatch, hlen, byteAt_take hr, hfirst, take_concat_byteAt (by omega), hcopy, Nat.add_right_comm, Nat.add_assoc]

/-! The invariant of the loop. -/

/-- What holds of the compressor between two iterations: its cursors are in order, every bucket holds an earlier position
(R114), and the output so far is a run of valid sequences that denotes the input up to the anchor (R123 (a)). -/
structure CompressorInv (bs : List Byte) (c : Compressor) : Prop where
  anchorLe : c.anchor ≤ c.ip
  ipLe : c.ip ≤ bs.length
  bucketsEarlier : ∀ b r, assocGet c.hash b = some r → r < c.ip
  emitted : ∃ body : List Sequence, bodyValid [] body ∧ body.foldl applySeq [] = bs.take c.anchor ∧
    c.out = body.flatMap fun q => emitSeq q.lits q.offset q.mlen

theorem compressorStart_inv (bs : List Byte) : CompressorInv bs compressorStart :=
  ⟨Nat.le_refl 0, Nat.zero_le _, nofun, [], trivial, rfl, rfl⟩

/-- The two ends of an iteration (R112). -/
theorem visit_cases (mul : Word) (bs : List Byte) (c : Compressor) :
    (visit mul bs c = { c with ip := c.ip + 1, hash := assocPut c.hash (bucketAt mul bs c.ip) c.ip }) ∨
    ∃ r, assocGet c.hash (bucketAt mul bs c.ip) = some r ∧ c.ip - r ≤ maxOffset ∧
      (∀ k < minMatch, byteAt bs (r + k) = byteAt bs (c.ip + k)) ∧
      visit mul bs c =
        { ip := c.ip + extendMatch bs r c.ip, anchor := c.ip + extendMatch bs r c.ip,
          hash := assocPut c.hash (bucketAt mul bs c.ip) c.ip,
          out := c.out ++ emitSeq (slice bs c.anchor c.ip) (c.ip - r) (extendMatch bs r c.ip) } := by
  cases hacc : acceptMatch bs (assocGet c.hash (bucketAt mul bs c.ip)) c.ip with
  | none => exact .inl (visit_of_no_match hacc)
  | some r =>
    obtain ⟨hbucket, hwindow, hfour⟩ := acceptMatch_eq_some hacc
    exact .inr ⟨r, hbucket, hwindow, hfour, visit_of_match hacc⟩

/-- Every iteration moves on (R122). -/
theorem ip_lt_visit_ip (mul : Word) (bs : List Byte) (c : Compressor) : c.ip < (visit mul bs c).ip := by
  rcases visit_cases mul bs c with hv | ⟨r, -, -, -, hv⟩ <;> rw [hv]
  · exact Nat.lt_succ_self _
  · exact Nat.lt_add_of_pos_right (Nat.lt_of_lt_of_le (by decide) (minMatch_le_extendMatch bs r c.ip))

/-- Every visited position is inserted, whether or not its candidate was accepted (R114). -/
theorem visit_hash (mul : Word) (bs : List Byte) (c : Compressor) :
    (visit mul bs c).hash = assocPut c.hash (bucketAt mul bs c.ip) c.ip := by
  rcases visit_cases mul bs c with hv | ⟨r, -, -, -, hv⟩ <;> rw [hv]

theorem visit_bucketsEarlier {mul : Word} {bs : List Byte} {c : Compressor} (h : CompressorInv bs c) (b r : Nat)
    (hb : assocGet (visit mul bs c).hash b = some r) : r < (visit mul bs c).ip := by
  have hip := ip_lt_visit_ip mul bs c
  rw [visit_hash, assocGet_assocPut] at hb
  split at hb
  · cases hb
    exact hip
  · exact Nat.lt_trans (h.bucketsEarlier b r hb) hip

/-- An accepted match extends a valid run of sequences, and the input it denotes, to the end of the match (R117, R123 (a)). -/
theorem CompressorInv.emitted_match {bs : List Byte} {c : Compressor} (h : CompressorInv bs c)
    (hip : c.ip + minMatch ≤ bs.length) {r : Nat} (hr : r < c.ip) (hwindow : c.ip - r ≤ maxOffset)
    (hfour : ∀ k < minMatch, byteAt bs (r + k) = byteAt bs (c.ip + k)) :
    ∃ body : List Sequence, bodyValid [] body ∧ body.foldl applySeq [] = bs.take (c.ip + extendMatch bs r c.ip) ∧
      c.out ++ emitSeq (slice bs c.anchor c.ip) (c.ip - r) (extendMatch bs r c.ip) =
        body.flatMap fun q => emitSeq q.lits q.offset q.mlen := by
  obtain ⟨body, hvalid, hmeaning, hout⟩ := h.emitted
  have hliterals : body.foldl applySeq [] ++ slice bs c.anchor c.ip = bs.take c.ip := by
    rw [hmeaning, take_append_slice bs h.anchorLe]
  have hback : c.ip - r ≤ (body.foldl applySeq []).length + (slice bs c.anchor c.ip).length := by
    have := h.ipLe
    rw [← List.length_append, hliterals, List.length_take]
    omega
  refine ⟨body ++ [⟨slice bs c.anchor c.ip, c.ip - r, extendMatch bs r c.ip⟩],
    bodyValid_concat hvalid (minMatch_le_extendMatch bs r c.ip) (by simp only; omega) hwindow hback, ?_, by simp [hout]⟩
  rw [List.foldl_concat, applySeq, hliterals]
  exact copyMatch_take hr (extendMatch_le hip r) fun _ hk => byteAt_of_lt_extendMatch hfour hk

theorem visit_inv {mul : Word} {bs : List Byte} {c : Compressor} (h : CompressorInv bs c)
    (hip : c.ip + minMatch ≤ bs.length) : CompressorInv bs (visit mul bs c) := by
  have hearlier := visit_bucketsEarlier (mul := mul) h
  rcases visit_cases mul bs c with hv | ⟨r, hbucket, hwindow, hfour, hv⟩ <;> rw [hv] at hearlier ⊢
  · exact ⟨Nat.le_succ_of_le h.anchorLe, Nat.le_trans (Nat.add_le_add_left (by decide) _) hip, hearlier, h.emitted⟩
  · exact ⟨Nat.le_refl _, extendMatch_le hip r, hearlier,
      h.emitted_match hip (h.bucketsEarlier _ r hbucket) hwindow hfour⟩

theorem visitLoop_inv {mul : Word} {bs : List Byte} (n : Nat) {c : Compressor} (h : CompressorInv bs c) :
    CompressorInv bs (visitLoop mul bs n c) := by
  induction n generalizing c with
  | zero => exact h
  | succ n ih =>
    rw [visitLoop]
    split
    · exact ih (visit_inv h ‹_›)
    · exact h

/-- The last sequence carries the input after the anchor, so the complete output denotes the whole input (R119). -/
theorem CompressorInv.denotes {bs : List Byte} {c : Compressor} (h : CompressorInv bs c) :
    Denotes (completeOutput bs c) bs := by
  obtain ⟨body, hvalid, hmeaning, hout⟩ := h.emitted
  refine ⟨⟨body, slice bs c.anchor bs.length, 0⟩, hvalid, Nat.zero_le _, ?_, ?_⟩
  · rw [completeOutput, hout]
    rfl
  · rw [streamMeaning, hmeaning, take_append_slice bs (Nat.le_trans h.anchorLe h.ipLe), List.take_length]

/-- Settles O43: the invariant holds at the start and after every iteration, and at the end it gives the meaning. -/
theorem compressedStreamDenotesItsInput : Obligations.CompressedStreamDenotesItsInput := by
  unfold Obligations.CompressedStreamDenotesItsInput
  exact fun mul bs => (visitLoop_inv bs.length (compressorStart_inv bs)).denotes

/-! The size of a valid stream (R122, R123 (c)). -/

theorem emitSeq_length (lits : List Byte) (offset mlen : Nat) :
    (emitSeq lits offset mlen).length =
      3 + (writeExt lits.length).length + lits.length + (writeExt (mlen - minMatch)).length := by
  simp [emitSeq]
  omega

theorem lastSeq_length (lits : List Byte) (ml : Nat) :
    (lastSeq lits ml).length = 1 + (writeExt lits.length).length + lits.length := by
  simp [lastSeq]
  omega

/-- A sequence costs little more than the bytes it covers: its match pays for its token and its offset. -/
theorem emitSeq_length_le {lits : List Byte} {mlen : Nat} (h : minMatch ≤ mlen) (offset : Nat) :
    (emitSeq lits offset mlen).length ≤ lits.length + mlen + lits.length / 255 := by
  rw [minMatch] at h
  rw [emitSeq_length, writeExt_length, writeExt_length, minMatch]
  split <;> split <;> omega

theorem lastSeq_length_le (lits : List Byte) (ml : Nat) :
    (lastSeq lits ml).length ≤ lits.length + 2 + lits.length / 255 := by
  rw [lastSeq_length, writeExt_length]
  split <;> omega

/-- What the rest of a stream costs, by what it adds to the output `out`. -/
theorem streamBytes_length_le {out : List Byte} {body : List Sequence} (h : bodyValid out body) (tail : List Byte)
    (ml : Nat) : ∃ n, (body.foldl applySeq out ++ tail).length = out.length + n ∧
      (streamBytes ⟨body, tail, ml⟩).length ≤ n + 2 + n / 255 := by
  induction body generalizing out with
  | nil => exact ⟨tail.length, List.length_append, lastSeq_length_le tail ml⟩
  | cons q body ih =>
    obtain ⟨hmin, -, -, -, hrest⟩ := h
    obtain ⟨n, hn, hsize⟩ := ih hrest
    have hq := emitSeq_length_le (lits := q.lits) hmin q.offset
    refine ⟨q.lits.length + q.mlen + n, ?_, ?_⟩
    · rw [List.foldl_cons, hn, applySeq_length]
      omega
    · rw [streamBytes_cons, List.length_append]
      omega

theorem Denotes.length_le {bs d : List Byte} (h : Denotes bs d) : bs.length ≤ d.length + 2 + d.length / 255 := by
  obtain ⟨⟨body, tail, ml⟩, hvalid, -, rfl, rfl⟩ := h
  obtain ⟨n, hn, hsize⟩ := streamBytes_length_le hvalid tail ml
  rw [streamMeaning, hn, List.length_nil, Nat.zero_add]
  exact hsize

/-- Settles O45: the bound holds of every valid stream, so of the one that denotes the input. -/
theorem compressedSizeBound : Obligations.CompressedSizeBound := by
  unfold Obligations.CompressedSizeBound
  exact fun mul bs => (compressedStreamDenotesItsInput mul bs).length_le

theorem streamBytes_length_pos (st : Stream) : 0 < (streamBytes st).length := by
  rw [streamBytes, List.length_append, lastSeq_length]
  omega

/-- A stream shorter than its meaning has a match, whose sequence has a literal to refer back to, and a last sequence
(R123 (c)). -/
theorem Denotes.five_le_length {bs d : List Byte} (h : Denotes bs d) (hshorter : bs.length < d.length) :
    5 ≤ bs.length := by
  obtain ⟨⟨body, tail, ml⟩, hvalid, -, rfl, rfl⟩ := h
  cases body with
  | nil =>
    have hlonger : tail.length < (lastSeq tail ml).length := by
      rw [lastSeq_length]
      omega
    exact absurd hshorter (Nat.lt_asymm hlonger)
  | cons q body =>
    obtain ⟨-, h1, -, hback, -⟩ := hvalid
    have hliteral : 1 ≤ q.lits.length := by
      rw [List.length_nil, Nat.zero_add] at hback
      exact Nat.le_trans h1 hback
    have hlast := streamBytes_length_pos ⟨body, tail, ml⟩
    rw [streamBytes_cons, List.length_append, emitSeq_length]
    omega

end Sys2Proof.Machine
end

/-! `LZ4.COMPRESS` as a command: its outcome, what `OK` guarantees, and its run by single iterations (41_lz4_compress.md R111,
R112, R120 to R123). -/
section

namespace Sys2Proof.Machine

/-! The outcome. -/

/-- Settles O42: the three ends of the command in range, one clause each. -/
theorem compressOutcomeDecision : Obligations.CompressOutcomeDecision := by
  unfold Obligations.CompressOutcomeDecision
  intro s hrange out
  rcases execLz4Compress_cases s with ⟨hbad, -⟩ | ⟨-, b, hcap, hlen, hc⟩ | ⟨-, b, hcap, hc⟩ | ⟨-, b, hcap, hlen, hc⟩
  · rw [hrange] at hbad
    cases hbad
  · have hfits : out.length ≤ (setHash b s).cap.toNat := hcap
    have hresult := finishOutput_result_toNat hfits
    exact ⟨_, hc, rfl, endInflate_memory (r := .ok _) hfits, fun h => absurd h (Nat.not_lt.2 hcap),
      fun _ h => absurd h (Nat.not_le.2 hlen), fun _ _ => ⟨rfl, hresult, memReadBytes_memSettle ..⟩⟩
  · exact ⟨_, hc, rfl, endInflate_memory (r := .error .noneCapacity) nofun, fun _ => ⟨rfl, rfl⟩,
      fun h => absurd hcap (Nat.not_lt.2 h), fun h => absurd hcap (Nat.not_lt.2 h)⟩
  · exact ⟨_, hc, rfl, endInflate_memory (r := .error .noneNoGain) nofun, fun h => absurd h (Nat.not_lt.2 hcap),
      fun _ _ => ⟨rfl, rfl⟩, fun _ h => absurd hlen (Nat.not_le.2 h)⟩

/-- What `OK` gives: the output fits, is shorter than the input, and stands in the destination region. -/
theorem execLz4Compress_ok {s t : State} (hrange : rangeOk s = true) (ht : exec .lz4Compress s = .next t)
    (hok : t.status = 0x01#8) :
    t.result.toNat ≤ s.cap.toNat ∧ t.result.toNat < s.len.toNat ∧
      memReadBytes t.mem s.dst.toNat t.result.toNat = deflate s.platform.hashMul (sourceBytes s) := by
  obtain ⟨hcap, hlen⟩ := execLz4Compress_of_status_ok ht hok
  obtain ⟨t', ht', -, -, -, -, hend⟩ := compressOutcomeDecision s hrange
  obtain rfl := Host.Outcome.next.inj (ht.symm.trans ht')
  obtain ⟨-, hresult, hout⟩ := hend hcap hlen
  rw [hresult]
  exact ⟨hcap, hlen, hout⟩

/-- Settles O46: the output of an `OK` is a valid stream shorter than its input. -/
theorem compressOkNeedsSixBytes : Obligations.CompressOkNeedsSixBytes := by
  unfold Obligations.CompressOkNeedsSixBytes
  intro s t hrange ht hok
  obtain ⟨-, hshorter, hout⟩ := execLz4Compress_ok hrange ht hok
  have hdenotes := compressedStreamDenotesItsInput s.platform.hashMul (sourceBytes s)
  rw [← hout] at hdenotes
  have hfive := hdenotes.five_le_length (by simpa using hshorter)
  rw [memReadBytes_length] at hfive
  omega

/-! The round trip. -/

/-- In range, a valid stream whose meaning fits the capacity is decompressed to its meaning (R142). -/
theorem execLz4Decompress_of_denotes {u : State} {d : List Byte} (hrange : rangeOk u = true)
    (h : Denotes (sourceBytes u) d) (hcap : d.length ≤ u.cap.toNat) :
    exec .lz4Decompress u = .next (finishOutput d u) := by
  rw [execLz4Decompress_eq, if_pos hrange, inflate_of_denotes h hcap]
  rfl

/-- Settles O44: the output denotes the source, every match of a valid stream is in bounds, and the decompressor gives the
meaning of a valid stream. -/
theorem compressedDataRoundTrips : Obligations.CompressedDataRoundTrips := by
  unfold Obligations.CompressedDataRoundTrips
  intro s t hrange ht hok y
  obtain ⟨hcap, hlen, hout⟩ := execLz4Compress_ok hrange ht hok
  have hdenotes := compressedStreamDenotesItsInput s.platform.hashMul (sourceBytes s)
  rw [← hout] at hdenotes
  refine ⟨hcap, hlen, ?_, fun u hu hy hroom => ?_⟩
  · obtain ⟨st, hvalid, hml, hbytes, hmeaning⟩ := hdenotes
    exact ⟨st, hvalid, hml, hbytes, hmeaning, fun q hq => bodyValid_mem hvalid hq⟩
  · have hfits : (sourceBytes s).length ≤ u.cap.toNat := by rwa [sourceBytes_length]
    refine ⟨_, execLz4Decompress_of_denotes hu (hy ▸ hdenotes) hfits, rfl, by simp, ?_⟩
    have hread := finishOutput_output hfits
    rwa [finishOutput_result_toNat hfits, sourceBytes_length] at hread

/-! The iterations as steps (log entry 4). -/

/-- The state in the middle of `LZ4.COMPRESS` with working state `c`. -/
def runningCompress (s : State) (c : Compressor) : State :=
  { s with hash := c.hash, engine := .compressing c.ip c.anchor c.out }

theorem startCompress_eq (s : State) : startCompress s = runningCompress s compressorStart := rfl

theorem openCompressor_runningCompress {s : State} {c : Compressor} (hrange : rangeOk s = true)
    (h : CompressorInv (sourceBytes s) c) : openCompressor (runningCompress s c) = some c := by
  have hip : c.ip ≤ s.len.toNat := sourceBytes_length s ▸ h.ipLe
  have hopen : openCompressor (runningCompress s c) =
      if rangeOk s && decide (c.anchor ≤ c.ip) && decide (c.ip ≤ s.len.toNat) then some c else none := rfl
  simp [hopen, hrange, h.anchorLe, hip]

/-- The command ended from the working state `c`. -/
def compressEndState (s : State) (c : Compressor) : State :=
  endCompress (completeOutput (sourceBytes s) c) (setHash c.hash s)

theorem exec_lz4Compress_of_rangeOk {s : State} (hrange : rangeOk s = true) :
    exec .lz4Compress s = .next (compressEndState s (compressorEnd s.platform.hashMul (sourceBytes s))) := by
  simp only [exec, execLz4Compress, hrange, if_true, compressEndState]

/-- The end of the command takes the cursors away, and keeps the hash table. -/
theorem endCompress_runningCompress (s : State) (c : Compressor) :
    endCompress (completeOutput (sourceBytes s) c) (runningCompress s c) = compressEndState s c := by
  have hend : ∀ r, endInflate r (runningCompress s c) = endInflate r (setHash c.hash s) := by
    intro r
    cases r <;> rfl
  rw [compressEndState, endCompress_eq_endInflate, endCompress_eq_endInflate]
  exact hend _

/-- A step of a running compressor is one iteration while four bytes can be read, and then the end (R112). -/
theorem step_runningCompress {s : State} {c : Compressor} (hrange : rangeOk s = true)
    (h : CompressorInv (sourceBytes s) c) : step (runningCompress s c) = .next
      (if c.ip + 4 ≤ (sourceBytes s).length then
        runningCompress s (visit s.platform.hashMul (sourceBytes s) c)
      else compressEndState s c) := by
  have hstep : step (runningCompress s c) = continueCompress (runningCompress s c) := rfl
  rw [hstep, continueCompress, openCompressor_runningCompress hrange h, sourceBytes_length,
    ← endCompress_runningCompress]
  rfl

theorem run_succ_of_step {M : Host.Core} {s t : M.State} (h : M.step s = .next t) (k : Nat) :
    M.run (k + 1) s = M.run k t := by
  rw [Host.Core.run, h]

theorem run_core_succ {s t : State} (h : step s = .next t) (k : Nat) :
    Host.Core.run Sys2Proof.core (k + 1) s = Host.Core.run Sys2Proof.core k t :=
  run_succ_of_step (M := Sys2Proof.core) (s := s) (t := t) h k

/-- With iterations enough to reach the end of the input, the steps of a running compressor follow its loop and end the
command. -/
theorem run_runningCompress {s : State} (hrange : rangeOk s = true) (n : Nat) {c : Compressor}
    (h : CompressorInv (sourceBytes s) c) (hn : (sourceBytes s).length ≤ c.ip + n) :
    ∃ k ≤ n + 1, Host.Core.run Sys2Proof.core k (runningCompress s c) =
      .next (compressEndState s (visitLoop s.platform.hashMul (sourceBytes s) n c)) := by
  induction n generalizing c with
  | zero =>
    have hstep := step_runningCompress hrange h
    rw [if_neg (by omega)] at hstep
    exact ⟨1, Nat.le_refl 1, run_core_succ hstep 0⟩
  | succ n ih =>
    have hstep := step_runningCompress hrange h
    rw [visitLoop]
    split at hstep
    · next hip =>
      have hmoves := ip_lt_visit_ip s.platform.hashMul (sourceBytes s) c
      have hinv := visit_inv (mul := s.platform.hashMul) h hip
      obtain ⟨k, hk, hrun⟩ := ih hinv (by omega)
      rw [if_pos hip]
      exact ⟨k + 1, Nat.succ_le_succ hk, (run_core_succ hstep k).trans hrun⟩
    · next hip =>
      rw [if_neg hip]
      exact ⟨1, by omega, run_core_succ hstep 0⟩

/-- Settles O47: the loop's fuel is the length of the input, and every iteration is a step. -/
theorem compressIsItsIterations : Obligations.CompressIsItsIterations := by
  unfold Obligations.CompressIsItsIterations
  intro s hrange
  obtain ⟨k, hk, hrun⟩ :=
    run_runningCompress hrange (sourceBytes s).length (compressorStart_inv (sourceBytes s)) (Nat.le_add_left _ _)
  rw [exec_lz4Compress_of_rangeOk hrange, startCompress_eq]
  exact ⟨k, sourceBytes_length s ▸ hk, hrun⟩

end Sys2Proof.Machine
end

/-! A pass of the decompressor's loop, branch by branch: the equations of its two halves, what its bytes must be for it to go on
or to end, and the fault it meets first (42_lz4_decompress.md R131 to R141). -/
section

namespace Sys2Proof.Machine

/-! The branches of a pass. -/

theorem streamPass_of_readLen_none {ll : Nat} {bytes : List Byte} (h : readLen ll bytes = none) (cap ml : Nat)
    (out : List Byte) : streamPass cap ll ml bytes out = .failed .failSrcOverrun := by
  simp only [streamPass, h]

theorem streamPass_of_readLen {ll litlen : Nat} {bytes rest : List Byte} (h : readLen ll bytes = some (litlen, rest))
    (cap ml : Nat) (out : List Byte) : streamPass cap ll ml bytes out =
      if litlen > rest.length then .failed .failSrcOverrun
      else if litlen > cap - out.length then .failed .failDstOverrun
      else if litlen = rest.length then .done (out ++ rest)
      else matchPass cap ml (rest.drop litlen) (out ++ rest.take litlen) := by
  simp only [streamPass, h]

/-- Literals that fit and do not end the stream are followed by a match. -/
theorem streamPass_of_literals {cap ll litlen : Nat} {bytes rest out : List Byte}
    (h : readLen ll bytes = some (litlen, rest)) (hlt : litlen < rest.length) (hfits : litlen ≤ cap - out.length)
    (ml : Nat) : streamPass cap ll ml bytes out = matchPass cap ml (rest.drop litlen) (out ++ rest.take litlen) := by
  rw [streamPass_of_readLen h, if_neg (by omega), if_neg (by omega), if_neg (by omega)]

/-- Literals that the stream does not hold whole (R134). -/
theorem streamPass_of_literals_cut {ll litlen : Nat} {bytes rest : List Byte}
    (h : readLen ll bytes = some (litlen, rest)) (hcut : rest.length < litlen) (cap ml : Nat) (out : List Byte) :
    streamPass cap ll ml bytes out = .failed .failSrcOverrun := by
  rw [streamPass_of_readLen h, if_pos hcut]

/-- Literals that the stream holds and the capacity does not (R134). -/
theorem streamPass_of_literals_overrun {cap ll litlen : Nat} {bytes rest out : List Byte}
    (h : readLen ll bytes = some (litlen, rest)) (hwhole : litlen ≤ rest.length) (hover : cap - out.length < litlen)
    (ml : Nat) : streamPass cap ll ml bytes out = .failed .failDstOverrun := by
  rw [streamPass_of_readLen h, if_neg (Nat.not_lt.2 hwhole), if_pos hover]

theorem matchPass_singleton (cap ml : Nat) (b : Byte) (out : List Byte) :
    matchPass cap ml [b] out = .failed .failSrcOverrun := rfl

theorem matchPass_of_readLen_none {ml : Nat} {rest : List Byte} (h : readLen ml rest = none) (cap : Nat) (b0 b1 : Byte)
    (out : List Byte) : matchPass cap ml (b0 :: b1 :: rest) out = .failed .failSrcOverrun := by
  simp only [matchPass, h]

theorem matchPass_of_readLen {ml stored : Nat} {rest after : List Byte} (h : readLen ml rest = some (stored, after))
    (cap : Nat) (b0 b1 : Byte) (out : List Byte) : matchPass cap ml (b0 :: b1 :: rest) out =
      if le16 b0 b1 = 0 then .failed .failBadOffset
      else if le16 b0 b1 > out.length then .failed .failBadOffset
      else if stored + minMatch > cap - out.length then .failed .failDstOverrun
      else .more after (copyMatch (le16 b0 b1) (stored + minMatch) out) := by
  simp only [matchPass, h]

/-- An offset of 0, or beyond the output (R138). -/
theorem matchPass_of_badOffset {ml stored : Nat} {rest after out : List Byte} {b0 b1 : Byte}
    (h : readLen ml rest = some (stored, after)) (hbad : le16 b0 b1 = 0 ∨ out.length < le16 b0 b1) (cap : Nat) :
    matchPass cap ml (b0 :: b1 :: rest) out = .failed .failBadOffset := by
  rw [matchPass_of_readLen h]
  rcases hbad with hzero | hfar
  · rw [if_pos hzero]
  · rw [if_pos hfar, ite_self]

/-- A match that the capacity does not hold (R139). -/
theorem matchPass_of_overrun {cap ml stored : Nat} {rest after out : List Byte} {b0 b1 : Byte}
    (h : readLen ml rest = some (stored, after)) (h1 : 1 ≤ le16 b0 b1) (hback : le16 b0 b1 ≤ out.length)
    (hover : cap - out.length < stored + minMatch) :
    matchPass cap ml (b0 :: b1 :: rest) out = .failed .failDstOverrun := by
  rw [matchPass_of_readLen h, if_neg (by omega), if_neg (by omega), if_pos hover]

/-- The end of a stream is found after its literals, not in a match (R135). -/
theorem matchPass_ne_done (cap ml : Nat) (rest out out' : List Byte) : matchPass cap ml rest out ≠ .done out' := by
  intro h
  match rest with
  | [] => cases h
  | [b0] => cases h
  | b0 :: b1 :: rest =>
    cases hread : readLen ml rest with
    | none => rw [matchPass_of_readLen_none hread] at h; cases h
    | some p =>
      rw [matchPass_of_readLen hread] at h
      split_ifs at h

/-! What the bytes of a pass are (R69). -/

theorem le16_bytes (b0 b1 : Byte) :
    BitVec.ofNat 8 (le16 b0 b1) = b0 ∧ BitVec.ofNat 8 (le16 b0 b1 / 256) = b1 ∧ le16 b0 b1 ≤ maxOffset := by
  have h0 := b0.isLt
  have h1 := b1.isLt
  refine ⟨BitVec.eq_of_toNat_eq ?_, BitVec.eq_of_toNat_eq ?_, show le16 b0 b1 ≤ 65535 from ?_⟩ <;>
    simp only [le16, BitVec.toNat_ofNat] <;> omega

/-- A match that is copied was coded by its offset and its length, refers back to output, and fits. -/
theorem matchPass_eq_more {cap ml : Nat} {rest out rest' out' : List Byte} (hml : ml ≤ 15)
    (h : matchPass cap ml rest out = .more rest' out') :
    ∃ offset mlen, minMatch ≤ mlen ∧ 1 ≤ offset ∧ offset ≤ maxOffset ∧ offset ≤ out.length ∧
      ml = lenNibble (mlen - minMatch) ∧
      rest = [BitVec.ofNat 8 offset, BitVec.ofNat 8 (offset / 256)] ++ writeExt (mlen - minMatch) ++ rest' ∧
      out' = copyMatch offset mlen out := by
  match rest with
  | [] => cases h
  | [b0] => cases h
  | b0 :: b1 :: rest =>
    cases hread : readLen ml rest with
    | none => rw [matchPass_of_readLen_none hread] at h; cases h
    | some p =>
      obtain ⟨stored, after⟩ := p
      rw [matchPass_of_readLen hread] at h
      split_ifs at h with hzero hback hfits
      cases h
      obtain ⟨hnib, rfl⟩ := readLen_eq_some hml hread
      obtain ⟨h0, h1, hmax⟩ := le16_bytes b0 b1
      refine ⟨le16 b0 b1, stored + minMatch, Nat.le_add_left _ _, Nat.pos_of_ne_zero hzero, hmax, Nat.le_of_not_lt hback,
        ?_, ?_, rfl⟩
      · rwa [Nat.add_sub_cancel]
      · rw [h0, h1, Nat.add_sub_cancel]
        rfl

/-- A pass that goes on has read the bytes of one valid sequence, and applied it (R69, R76). -/
theorem streamPass_eq_more {cap ll ml : Nat} {bytes out rest' out' : List Byte} (hll : ll ≤ 15) (hml : ml ≤ 15)
    (h : streamPass cap ll ml bytes out = .more rest' out') :
    ∃ q : Sequence, bodyValid out [q] ∧ encodeToken ll ml :: bytes = emitSeq q.lits q.offset q.mlen ++ rest' ∧
      out' = applySeq out q := by
  cases hread : readLen ll bytes with
  | none => rw [streamPass_of_readLen_none hread] at h; cases h
  | some p =>
    obtain ⟨litlen, rest⟩ := p
    rw [streamPass_of_readLen hread] at h
    split_ifs at h with hcut
    obtain ⟨offset, mlen, hmin, h1, hmax, hback, rfl, hdrop, rfl⟩ := matchPass_eq_more hml h
    obtain ⟨rfl, rfl⟩ := readLen_eq_some hll hread
    have hlits : (rest.take litlen).length = litlen := List.length_take_of_le (Nat.le_of_not_lt hcut)
    refine ⟨⟨rest.take litlen, offset, mlen⟩, ⟨hmin, h1, hmax, by simpa using hback, trivial⟩, ?_, rfl⟩
    have hrest := List.take_append_drop litlen rest
    rw [hdrop] at hrest
    rw [emitSeq, hlits]
    conv_lhs => rw [← hrest]
    simp

/-- A pass that ends the command has read the bytes of a last sequence (R75, R135). -/
theorem streamPass_eq_done {cap ll ml : Nat} {bytes out out' : List Byte} (hll : ll ≤ 15)
    (h : streamPass cap ll ml bytes out = .done out') :
    ∃ lits, encodeToken ll ml :: bytes = lastSeq lits ml ∧ out' = out ++ lits := by
  cases hread : readLen ll bytes with
  | none => rw [streamPass_of_readLen_none hread] at h; cases h
  | some p =>
    obtain ⟨litlen, rest⟩ := p
    rw [streamPass_of_readLen hread] at h
    split_ifs at h with hcut hfits hlast
    · cases h
      obtain ⟨rfl, rfl⟩ := readLen_eq_some hll hread
      exact ⟨rest, by rw [hlast, lastSeq]; rfl, rfl⟩
    · exact (matchPass_ne_done _ _ _ _ _ h).elim

end Sys2Proof.Machine
end

/-! `LZ4.TOKEN`: the step that reads it, what it stores, the fault it reports, and what it leaves unchanged (42_lz4_decompress.md
R131 to R141). -/
section

namespace Sys2Proof.Machine

/-! The step. -/

theorem drop_sourceBytes {s : State} {ip : Nat} (h : ip < s.len.toNat) :
    (sourceBytes s).drop ip = memRead s.mem (s.src.toNat + ip) :: (sourceBytes s).drop (ip + 1) := by
  rw [List.drop_eq_getElem_cons (by simpa using h)]
  simp only [sourceBytes, memReadBytes_getElem]

theorem step_of_openStream {s : State} {ip op : Nat} (h : openStream s = some (ip, op)) : step s = streamStep s := by
  rw [step, (openStream_eq_some.1 h).1]

/-- A step of an open stream reads a token, moves past it and runs it (R131, R132). -/
theorem step_of_token {s : State} {ip op : Nat} {token : Byte} {rest : List Byte} (h : openStream s = some (ip, op))
    (hbytes : (sourceBytes s).drop ip = token :: rest) : step s = exec (decodeToken token) (skipToken ip op s) := by
  rw [step_of_openStream h, streamStep, h]
  simp only [hbytes, decode_stream_cons]

/-- A step of an open stream with no byte left fails (R132). -/
theorem step_of_streamEnd {s : State} {ip op : Nat} (h : openStream s = some (ip, op))
    (hbytes : (sourceBytes s).drop ip = []) : step s = .next (raiseOutput .failSrcOverrun s) := by
  rw [step_of_openStream h, streamStep, h]
  simp only [hbytes, decode_nil]

/-- Settles O6: the open stream's next byte is the token, and every byte is one. -/
theorem stepRunsTheDecodedToken : Obligations.StepRunsTheDecodedToken := by
  unfold Obligations.StepRunsTheDecodedToken
  intro s ip op hengine hrange hip hop
  have hopen := openStream_eq_some.2 ⟨hengine, hrange, Nat.le_of_lt hip, hop⟩
  exact ⟨decodeToken_wellFormed _, step_of_token hopen (drop_sourceBytes hip)⟩

/-! What a pass that goes on stores. -/

theorem memRead_memWriteBytes_outside {m : Memory} {base a : Nat} {bs : List Byte} (h : ¬ inRegion base bs.length a) :
    memRead (memWriteBytes m base bs) a = memRead m a := by
  rw [memRead_memWriteBytes, if_neg h]

/-- Behind bytes that stand in memory, storing the rest of a byte string makes it stand there whole. -/
theorem memReadBytes_memWriteBytes_drop {m : Memory} {base n : Nat} {out : List Byte}
    (h : memReadBytes m base n <+: out) :
    memReadBytes (memWriteBytes m (base + n) (out.drop n)) base out.length = out := by
  have hn : n ≤ out.length := by simpa using h.length_le
  refine List.ext_getElem (by simp) fun i h1 hi => ?_
  rw [memReadBytes_getElem, memRead_memWriteBytes, List.length_drop]
  by_cases hlt : i < n
  · have hout : ¬ inRegion (base + n) (out.length - n) (base + i) := by simp only [inRegion]; omega
    rw [if_neg hout, ← memReadBytes_getElem m base n i (by simpa using hlt)]
    exact h.getElem _
  · have hin : inRegion (base + n) (out.length - n) (base + i) := by simp only [inRegion]; omega
    have hindex : n + (base + i - (base + n)) = i := by omega
    rw [if_pos hin, List.getD_eq_getElem?_getD, List.getElem?_drop, hindex, List.getElem?_eq_getElem hi, Option.getD_some]

/-- Settles O31: the pass reads the sequence back, and stores what the output has gained behind the old output. -/
theorem tokenCopiesItsSequence : Obligations.TokenCopiesItsSequence := by
  unfold Obligations.TokenCopiesItsSequence
  intro s ip op q rest hengine hrange hip hop hbytes hmin h1 hmax hback hcap
  have hexec := exec_lz4Token_of_open (openStream_eq_some.2 ⟨hengine, hrange, hip, hop⟩) (lenNibble q.lits.length)
    (lenNibble (q.mlen - minMatch))
  have hpass := streamPass_emitted (cap := s.cap.toNat) (out := memReadBytes s.mem s.dst.toNat op) hmin h1 hmax
    (by simpa using hback) (by simpa using hcap) rest
  rw [hbytes, show 4 = minMatch from rfl, hpass] at hexec
  have hlen : (copyMatch q.offset q.mlen (memReadBytes s.mem s.dst.toNat op ++ q.lits)).length =
      op + q.lits.length + q.mlen := by simp
  have hprefix : memReadBytes s.mem s.dst.toNat op <+:
      copyMatch q.offset q.mlen (memReadBytes s.mem s.dst.toNat op ++ q.lits) :=
    (List.prefix_append _ _).trans (copyMatch_prefix _ _ _)
  refine ⟨_, hexec, ?_, ?_, fun a ha => memRead_memWriteBytes_outside ?_⟩
  · rw [endPass, hlen]
  · rw [← hlen]
    exact memReadBytes_memWriteBytes_drop hprefix
  · rwa [List.length_drop, hlen, Nat.add_assoc, Nat.add_sub_cancel_left]

/-! The first fault. -/

theorem exec_lz4Token_of_failed {s : State} {ip op ll ml : Nat} {c : Code} (h : openStream s = some (ip, op))
    (hpass : streamPass s.cap.toNat ll ml ((sourceBytes s).drop ip) (memReadBytes s.mem s.dst.toNat op) = .failed c) :
    ∃ t, exec (.lz4Token ll ml) s = .next t ∧ t.status = codeByte c ∧ t.result = 0 ∧ t.engine = .idle :=
  ⟨raiseOutput c s, by rw [exec_lz4Token_of_open h, hpass, endPass], rfl, rfl, rfl⟩

/-- Settles O33: each clause is one branch of the pass, in the order in which the pass tries them. -/
theorem tokenReportsTheFirstFault : Obligations.TokenReportsTheFirstFault := by
  unfold Obligations.TokenReportsTheFirstFault
  intro s ip op ll ml hengine hrange hip hop bytes endsWith
  have hlen : (memReadBytes s.mem s.dst.toNat op).length = op := memReadBytes_length ..
  have hfail : ∀ c, streamPass s.cap.toNat ll ml bytes (memReadBytes s.mem s.dst.toNat op) = .failed c →
      endsWith (codeByte c) :=
    fun c => exec_lz4Token_of_failed (openStream_eq_some.2 ⟨hengine, hrange, hip, hop⟩)
  refine ⟨fun hread => hfail .failSrcOverrun (streamPass_of_readLen_none hread ..), fun litlen rest hread => ?_⟩
  refine ⟨fun hcut => hfail .failSrcOverrun (streamPass_of_literals_cut hread hcut ..),
    fun hwhole hover => hfail .failDstOverrun (streamPass_of_literals_overrun hread hwhole (hlen.symm ▸ hover) ml),
    fun hfits hone => hfail .failSrcOverrun ?_, fun b0 b1 more hfits hmore => ?_⟩
  · obtain ⟨b, hb⟩ := List.length_eq_one_iff.1 (show (rest.drop litlen).length = 1 by rw [List.length_drop]; omega)
    rw [streamPass_of_literals hread (by omega) (hlen.symm ▸ hfits), hb, matchPass_singleton]
  · have hlonger : litlen < rest.length := Nat.lt_of_not_le fun hle => by
      rw [List.drop_of_length_le hle] at hmore
      cases hmore
    have hpass := streamPass_of_literals hread hlonger (hlen.symm ▸ hfits) ml
    have hout : (memReadBytes s.mem s.dst.toNat op ++ rest.take litlen).length = op + litlen := by
      rw [List.length_append, hlen, List.length_take_of_le (Nat.le_of_lt hlonger)]
    rw [hmore] at hpass
    exact ⟨fun hcut => hfail .failSrcOverrun (hpass.trans (matchPass_of_readLen_none hcut ..)), fun stored after hstored =>
      ⟨fun hbad => hfail .failBadOffset (hpass.trans (matchPass_of_badOffset hstored (hout.symm ▸ hbad) _)),
        fun h1 hback hover => hfail .failDstOverrun
          (hpass.trans (matchPass_of_overrun hstored h1 (hout.symm ▸ hback) (hout.symm ▸ hover)))⟩⟩

/-! The frame. -/

theorem endPass_frame (op : Nat) (r : PassEnd) (s : State) :
    SameOperands s (endPass op r s) ∧ SameLazyState s (endPass op r s) ∧ SameSurroundings s (endPass op r s) ∧
      (endPass op r s).crc = s.crc ∧ (endPass op r s).hash = s.hash := by
  cases r <;> exact ⟨⟨rfl, rfl, rfl, rfl, rfl⟩, ⟨rfl, rfl, rfl⟩, ⟨rfl, rfl⟩, rfl, rfl⟩

theorem endPass_more_memory {op : Nat} (rest out : List Byte) (s : State) :
    SameMemoryOutside (s.dst.toNat + op) (out.length - op) s (endPass op (.more rest out) s) := by
  intro a ha
  exact memRead_memWriteBytes_outside (by rwa [List.length_drop])

/-- Settles O34: a pass that goes on stores inside the capacity what it appended; one that ends the command settles the
destination region. -/
theorem tokenFrame : Obligations.TokenFrame := by
  unfold Obligations.TokenFrame
  intro s t ip op ll ml hengine ht
  rcases execLz4Token_cases ll ml s with ⟨-, hc⟩ | ⟨ip', op', hopen, hc⟩ <;> cases hc.symm.trans ht
  obtain ⟨hengine', -, -, hop⟩ := openStream_eq_some.1 hopen
  cases hengine.symm.trans hengine'
  have hcap : (memReadBytes s.mem s.dst.toNat op).length ≤ s.cap.toNat := by simpa using hop
  generalize hr : streamPass s.cap.toNat ll ml ((sourceBytes s).drop ip) (memReadBytes s.mem s.dst.toNat op) = r
  obtain ⟨hops, hlazy, hsur, hcrc, hhash⟩ := endPass_frame op r s
  refine ⟨hops, hlazy, hsur, hcrc, hhash, ?_⟩
  cases r with
  | more rest out =>
    obtain ⟨-, hfits⟩ := streamPass_more hcap hr
    refine ⟨fun a ha => endPass_more_memory rest out s a ?_, ?_⟩
    · simp only [inRegion] at ha ⊢
      omega
    · rintro _ _ ⟨⟩
      exact ⟨endPass_more_memory rest out s, rfl, rfl⟩
  | done out => exact ⟨endInflate_memory (r := .ok out) (streamPass_done hcap hr).2, nofun⟩
  | failed c =>
    exact ⟨fun _ ha => memRead_memSettle_outside (Nat.zero_le _) ha, nofun⟩

end Sys2Proof.Machine
end

/-! `LZ4.DECOMPRESS` and the grammar: what is decoded is what the stream denotes, and output that does not fit is reported as
such (42_lz4_decompress.md R130, R142, R148). -/
section

namespace Sys2Proof.Machine

/-! Soundness: the bytes that the loop accepts are those of a valid stream. -/

theorem inflateLoop_sound {cap : Nat} (n : Nat) {bs out d : List Byte} (h : inflateLoop cap n bs out = .ok d) :
    ∃ body tail ml, bodyValid out body ∧ ml ≤ nibbleMax ∧ streamBytes ⟨body, tail, ml⟩ = bs ∧
      body.foldl applySeq out ++ tail = d := by
  induction n generalizing bs out with
  | zero => cases h
  | succ n ih =>
    cases bs with
    | nil => cases h
    | cons token rest =>
      have hll : tokenLL token ≤ 15 := Nat.le_of_lt_succ (tokenLL_lt token)
      have hml : tokenML token ≤ 15 := Nat.le_of_lt_succ (tokenML_lt token)
      rw [inflateLoop] at h
      split at h
      · next rest' out' hpass =>
        obtain ⟨q, ⟨hmin, h1, hmax, hback, -⟩, hbytes, rfl⟩ := streamPass_eq_more hll hml hpass
        obtain ⟨body, tail, ml, hvalid, htailML, hrest, hmeaning⟩ := ih h
        refine ⟨q :: body, tail, ml, ⟨hmin, h1, hmax, hback, hvalid⟩, htailML, ?_, hmeaning⟩
        rw [streamBytes_cons, hrest, ← hbytes, encodeToken_tokenLL_tokenML]
      · next out' hpass =>
        cases h
        obtain ⟨lits, hbytes, rfl⟩ := streamPass_eq_done hll hpass
        rw [encodeToken_tokenLL_tokenML] at hbytes
        exact ⟨[], lits, tokenML token, trivial, hml, hbytes.symm, rfl⟩
      · cases h

/-- The decompressor succeeds exactly on the valid streams whose meaning fits, and gives that meaning (R142, R148). -/
theorem inflate_eq_ok_iff {cap : Nat} {bs d : List Byte} :
    inflate cap bs = .ok d ↔ Denotes bs d ∧ d.length ≤ cap := by
  refine ⟨fun h => ⟨?_, inflate_length_le h⟩, fun ⟨h, hcap⟩ => inflate_of_denotes h hcap⟩
  obtain ⟨body, tail, ml, hvalid, hml, hbytes, hmeaning⟩ := inflateLoop_sound _ h
  exact ⟨⟨body, tail, ml⟩, hvalid, hml, hbytes, hmeaning⟩

/-! Output that does not fit. -/

theorem streamPass_lastSeq_overrun {cap : Nat} {lits out : List Byte} (hout : out.length ≤ cap)
    (hover : cap < out.length + lits.length) (ml : Nat) :
    streamPass cap (lenNibble lits.length) ml (writeExt lits.length ++ lits) out = .failed .failDstOverrun :=
  streamPass_of_literals_overrun (readLen_writeExt _ _) (Nat.le_refl _) (by omega) ml

/-- Where a coded sequence does not fit, its literals or its match overrun the capacity (R134, R139). -/
theorem streamPass_emitted_overrun {cap offset mlen : Nat} {lits out : List Byte} (hmin : minMatch ≤ mlen)
    (h1 : 1 ≤ offset) (hmax : offset ≤ maxOffset) (hback : offset ≤ out.length + lits.length) (hout : out.length ≤ cap)
    (hover : cap < out.length + lits.length + mlen) (rest : List Byte) :
    streamPass cap (lenNibble lits.length) (lenNibble (mlen - minMatch))
        (writeExt lits.length ++ lits ++ [BitVec.ofNat 8 offset, BitVec.ofNat 8 (offset / 256)] ++
          writeExt (mlen - minMatch) ++ rest) out =
      .failed .failDstOverrun := by
  simp only [List.append_assoc, List.cons_append, List.nil_append]
  have hread := readLen_writeExt lits.length (lits ++ BitVec.ofNat 8 offset :: BitVec.ofNat 8 (offset / 256) ::
    (writeExt (mlen - minMatch) ++ rest))
  by_cases hlits : lits.length ≤ cap - out.length
  · have hlen : (out ++ lits).length = out.length + lits.length := List.length_append
    rw [streamPass_of_literals hread (by simp) hlits, List.drop_left, List.take_left]
    refine matchPass_of_overrun (readLen_writeExt _ _) ?_ ?_ ?_
    · rwa [le16_ofNat hmax]
    · rwa [le16_ofNat hmax, hlen]
    · rw [hlen]
      omega
  · exact streamPass_of_literals_overrun hread (by simp) (Nat.lt_of_not_le hlits) _

theorem inflateLoop_of_failed {cap n ll ml : Nat} {rest out : List Byte} {c : Code} (hll : ll < 16) (hml : ml < 16)
    (h : streamPass cap ll ml rest out = .failed c) :
    inflateLoop cap (n + 1) (encodeToken ll ml :: rest) out = .error c := by
  rw [inflateLoop, tokenLL_encodeToken hll hml, tokenML_encodeToken hll hml, h]

/-- On a valid stream the first sequence that does not fit ends the loop, and nothing else can (R148). -/
theorem inflateLoop_streamBytes_overrun {cap n ml : Nat} {body : List Sequence} {tail out : List Byte} (hml : ml < 16)
    (hvalid : bodyValid out body) (hout : out.length ≤ cap)
    (hover : cap < (body.foldl applySeq out).length + tail.length)
    (hn : (streamBytes ⟨body, tail, ml⟩).length < n) :
    inflateLoop cap n (streamBytes ⟨body, tail, ml⟩) out = .error .failDstOverrun := by
  induction n generalizing body out with
  | zero => omega
  | succ n ih =>
    cases body with
    | nil => exact inflateLoop_of_failed (lenNibble_lt _) hml (streamPass_lastSeq_overrun hout hover ml)
    | cons q body =>
      obtain ⟨hmin, h1, hmax, hback, hrest⟩ := hvalid
      rw [streamBytes_cons]
      by_cases hfits : out.length + q.lits.length + q.mlen ≤ cap
      · have hshorter : (streamBytes ⟨body, tail, ml⟩).length < n := by
          have := List.length_pos_of_ne_nil (emitSeq_ne_nil q.lits q.offset q.mlen)
          rw [streamBytes_cons, List.length_append] at hn
          omega
        exact (inflateLoop_of_more (lenNibble_lt _) (lenNibble_lt _)
          (streamPass_emitted hmin h1 hmax hback hfits _)).trans
          (ih hrest (applySeq_length out q ▸ hfits) hover hshorter)
      · exact inflateLoop_of_failed (lenNibble_lt _) (lenNibble_lt _)
          (streamPass_emitted_overrun hmin h1 hmax hback hout (Nat.lt_of_not_le hfits) _)

/-- On a valid stream whose output does not fit, the decompressor says that it does not (R148). -/
theorem inflate_of_denotes_overrun {cap : Nat} {bs d : List Byte} (h : Denotes bs d) (hover : cap < d.length) :
    inflate cap bs = .error .failDstOverrun := by
  obtain ⟨⟨body, tail, ml⟩, hvalid, hml, rfl, rfl⟩ := h
  exact inflateLoop_streamBytes_overrun (Nat.lt_succ_of_le hml) hvalid (Nat.zero_le _)
    (by simpa [streamMeaning] using hover) (Nat.lt_succ_self _)

/-! The command. -/

theorem execLz4Decompress_of_inflate {s : State} (hrange : rangeOk s = true) {r : Except Code (List Byte)}
    (h : inflate s.cap.toNat (sourceBytes s) = r) : exec .lz4Decompress s = .next (endInflate r s) := by
  rw [execLz4Decompress_eq, if_pos hrange, h]

/-- Settles O36: the command ends with what the stream denotes. -/
theorem decompressWritesTheDecodedBytes : Obligations.DecompressWritesTheDecodedBytes := by
  unfold Obligations.DecompressWritesTheDecodedBytes
  intro s d hrange hdenotes hcap
  have hresult := finishOutput_result_toNat hcap
  have hread := finishOutput_output hcap
  rw [hresult] at hread
  exact ⟨_, execLz4Decompress_of_denotes hrange hdenotes hcap, rfl, hresult, hread, rfl,
    endInflate_memory (r := .ok d) hcap⟩

theorem codeByte_mem_of_failCodes {c : Code} (h : c ∈ failCodes) : codeByte c ∈ [0x20#8, 0x21#8, 0x22#8] :=
  List.mem_map_of_mem (f := codeByte) h

/-- An end of the engine shows the host `OK` and the bytes `d` exactly if it is an end with the output `d`. -/
theorem endInflate_shows_iff {r : Except Code (List Byte)} {s : State} (h : EngineEnd s.cap.toNat r)
    (hok : r ≠ .error .ok) (d : List Byte) :
    ((endInflate r s).status = 0x01#8 ∧ (endInflate r s).result.toNat = d.length ∧
      memReadBytes (endInflate r s).mem s.dst.toNat d.length = d) ↔ r = .ok d := by
  cases r with
  | ok out =>
    have hresult : (endInflate (.ok out) s).result.toNat = out.length := finishOutput_result_toNat h
    have hread : memReadBytes (endInflate (.ok out) s).mem s.dst.toNat (endInflate (.ok out) s).result.toNat = out :=
      finishOutput_output h
    constructor
    · rintro ⟨-, hlen, hd⟩
      rw [hlen, hd] at hread
      rw [hread]
    · rintro ⟨⟩
      exact ⟨rfl, hresult, hresult ▸ hread⟩
  | error c =>
    refine ⟨fun ⟨hstatus, _⟩ => absurd ?_ hok, nofun⟩
    rw [codeByte_eq_ok_iff.1 hstatus]

/-- Settles O37: the command ends as `inflate` does, which accepts the valid streams that fit, says of a valid stream that
does not fit that it overruns, and otherwise fails with some `FAIL_*` code. -/
theorem decompressOkExactlyOnValidStreams : Obligations.DecompressOkExactlyOnValidStreams := by
  unfold Obligations.DecompressOkExactlyOnValidStreams
  intro s hrange
  have hnotOk : inflate s.cap.toNat (sourceBytes s) ≠ .error .ok := fun h => absurd (inflate_error h) (by decide)
  refine ⟨_, execLz4Decompress_of_inflate hrange rfl, fun d => ?_, fun d hdenotes hover => ?_, fun hnone => ?_⟩
  · rw [endInflate_shows_iff (inflate_engineEnd _ _) hnotOk, inflate_eq_ok_iff]
  · rw [inflate_of_denotes_overrun hdenotes hover]
    exact ⟨rfl, rfl⟩
  · cases hr : inflate s.cap.toNat (sourceBytes s) with
    | ok d => exact absurd ⟨d, (inflate_eq_ok_iff.1 hr).1⟩ hnone
    | error c => exact ⟨codeByte_mem_of_failCodes (inflate_error hr), rfl⟩

end Sys2Proof.Machine
end

/-! `LZ4.DECOMPRESS` as the run of its token passes: what a pass stores lies in the region that the end of the command settles, so
the memory it leaves is the same, cell by cell and span by span (42_lz4_decompress.md R131, R145, log entry 4). -/
section

namespace Sys2Proof.Machine

/-! Settling a region forgets the stores inside it. -/

theorem assocPut_filter {β : Type} {keep : Nat → Bool} {a : Nat} (h : keep a = false) (l : List (Nat × β)) (v : β) :
    (assocPut l a v).filter (fun e => keep e.1) = l.filter fun e => keep e.1 := by
  induction l with
  | nil => simp [assocPut, h]
  | cons e rest ih =>
    obtain ⟨k, w⟩ := e
    rw [assocPut]
    split_ifs with hlt heq
    · exact List.filter_cons_of_neg (by simp [h])
    · subst heq
      simp [h]
    · simp only [List.filter_cons, ih]

theorem assocDrop_filter {β : Type} {keep : Nat → Bool} {a : Nat} (h : keep a = false) (l : List (Nat × β)) :
    (assocDrop l a).filter (fun e => keep e.1) = l.filter fun e => keep e.1 := by
  rw [assocDrop, List.filter_filter]
  refine List.filter_congr fun e _ => ?_
  by_cases he : e.1 = a
  · simp [he, h]
  · simp [he]

/-- The addresses `lo` to `hi - 1` as a span, where there are any. -/
def spanPiece (draw lo hi : Nat) : List Span := if lo < hi then [⟨lo, hi - lo, draw⟩] else []

theorem spanPiece_of_le {lo hi : Nat} (h : hi ≤ lo) (draw : Nat) : spanPiece draw lo hi = [] :=
  if_neg (Nat.not_lt.2 h)

/-- Carving leaves the piece before the addresses taken out and the piece after them. -/
theorem spanCarve_eq (lo hi : Nat) (sp : Span) : spanCarve lo hi sp =
    spanPiece sp.draw sp.base (min lo (sp.base + sp.size)) ++
      spanPiece sp.draw (max hi sp.base) (sp.base + sp.size) := rfl

theorem spanPiece_flatMap_spanCarve (draw b e lo hi : Nat) : (spanPiece draw b e).flatMap (spanCarve lo hi) =
    spanPiece draw b (min lo e) ++ spanPiece draw (max hi b) e := by
  by_cases h : b < e
  · have hend : b + (e - b) = e := by omega
    rw [spanPiece, if_pos h, List.flatMap_singleton, spanCarve_eq, hend]
  · rw [spanPiece_of_le (by omega), spanPiece_of_le (by omega), spanPiece_of_le (by omega)]
    rfl

/-- Carving an address out of a span first makes no difference to carving out a region that holds it. -/
theorem spanCarve_flatMap_spanCarve {lo hi a : Nat} (hlo : lo ≤ a) (hhi : a < hi) (sp : Span) :
    (spanCarve a (a + 1) sp).flatMap (spanCarve lo hi) = spanCarve lo hi sp := by
  have hleft : min lo (min a (sp.base + sp.size)) = min lo (sp.base + sp.size) := by omega
  have hright : max hi (max (a + 1) sp.base) = max hi sp.base := by omega
  rw [spanCarve_eq a, List.flatMap_append, spanPiece_flatMap_spanCarve, spanPiece_flatMap_spanCarve, hleft, hright,
    spanPiece_of_le (lo := max hi sp.base) (by omega), spanPiece_of_le (lo := max (a + 1) sp.base) (by omega),
    List.append_nil, List.nil_append, spanCarve_eq]

/-- Is an address outside the `size` bytes from `base` on? -/
def outsideRegion (base size a : Nat) : Bool := !(decide (base ≤ a) && decide (a < base + size))

theorem outsideRegion_eq_false {base size a : Nat} (h : inRegion base size a) : outsideRegion base size a = false := by
  simp [outsideRegion, h.1, h.2]

theorem memFree_eq {size : Nat} (h : size ≠ 0) (m : Memory) (base draw : Nat) : memFree m base size draw =
    { cells := m.cells.filter fun c => outsideRegion base size c.1
      spans := spanPut ⟨base, size, draw⟩ (m.spans.flatMap (spanCarve base (base + size))) } :=
  if_neg h

theorem memWrite_cells_filter {keep : Nat → Bool} {a : Nat} (h : keep a = false) (m : Memory) (b : Byte) :
    (memWrite m a b).cells.filter (fun c => keep c.1) = m.cells.filter fun c => keep c.1 := by
  rw [memWrite]
  split_ifs
  · exact assocDrop_filter h m.cells
  · exact assocPut_filter h m.cells b

theorem memWrite_spans_carve {lo hi a : Nat} (hlo : lo ≤ a) (hhi : a < hi) (m : Memory) (b : Byte) :
    (memWrite m a b).spans.flatMap (spanCarve lo hi) = m.spans.flatMap (spanCarve lo hi) := by
  simp only [memWrite, List.flatMap_assoc, spanCarve_flatMap_spanCarve hlo hhi]

theorem memFree_memWrite {base size a : Nat} (h : inRegion base size a) (m : Memory) (draw : Nat) (b : Byte) :
    memFree (memWrite m a b) base size draw = memFree m base size draw := by
  obtain ⟨hlo, hhi⟩ := h
  have hsize : size ≠ 0 := by omega
  rw [memFree_eq hsize, memFree_eq hsize, memWrite_cells_filter (outsideRegion_eq_false ⟨hlo, hhi⟩),
    memWrite_spans_carve hlo hhi]

theorem memFree_memWriteBytes {base size start : Nat} (bs : List Byte) (hlo : base ≤ start)
    (hhi : start + bs.length ≤ base + size) (m : Memory) (draw : Nat) :
    memFree (memWriteBytes m start bs) base size draw = memFree m base size draw := by
  induction bs generalizing m start with
  | nil => rfl
  | cons b rest ih =>
    rw [List.length_cons] at hhi
    rw [memWriteBytes, ih (by omega) (by omega), memFree_memWrite ⟨hlo, by omega⟩]

theorem memSettle_memWriteBytes {base size : Nat} {bs : List Byte} (h : bs.length ≤ size) (m : Memory) (draw : Nat)
    (out : List Byte) : memSettle (memWriteBytes m base bs) base size draw out = memSettle m base size draw out := by
  rw [memSettle, memSettle, memFree_memWriteBytes bs (Nat.le_refl base) (Nat.add_le_add_left h base)]

theorem memWriteBytes_append (m : Memory) (base : Nat) (xs ys : List Byte) :
    memWriteBytes (memWriteBytes m base xs) (base + xs.length) ys = memWriteBytes m base (xs ++ ys) := by
  induction xs generalizing m base with
  | nil => rfl
  | cons x xs ih =>
    rw [List.length_cons, memWriteBytes, List.cons_append, memWriteBytes, ← ih, Nat.add_assoc, Nat.add_comm 1]

/-! The state between two passes. -/

/-- A pass that goes on has read its token and more, and leaves the rest. -/
theorem streamPass_more_rest {cap : Nat} {token : Byte} {rest out rest' out' : List Byte}
    (h : streamPass cap (tokenLL token) (tokenML token) rest out = .more rest' out') :
    rest' <:+ token :: rest ∧ rest'.length < (token :: rest).length := by
  obtain ⟨q, -, hbytes, -⟩ :=
    streamPass_eq_more (Nat.le_of_lt_succ (tokenLL_lt token)) (Nat.le_of_lt_succ (tokenML_lt token)) h
  have hpos := List.length_pos_of_ne_nil (emitSeq_ne_nil q.lits q.offset q.mlen)
  rw [encodeToken_tokenLL_tokenML] at hbytes
  rw [hbytes, List.length_append]
  exact ⟨List.suffix_append _ _, by omega⟩

theorem openStream_skipToken {s : State} {ip op : Nat} (h : openStream s = some (ip, op)) (hip : ip < s.len.toNat) :
    openStream (skipToken ip op s) = some (ip + 1, op) := by
  obtain ⟨-, hrange, -, hop⟩ := openStream_eq_some.1 h
  exact openStream_eq_some.2 ⟨rfl, hrange, hip, hop⟩

/-- A step of an open stream with a byte left is the pass of the token it reads (R131). -/
theorem step_of_pass {s : State} {ip op : Nat} {token : Byte} {rest out : List Byte} (h : openStream s = some (ip, op))
    (hbytes : (sourceBytes s).drop ip = token :: rest) (hout : memReadBytes s.mem s.dst.toNat op = out) :
    step s = .next
      (endPass op (streamPass s.cap.toNat (tokenLL token) (tokenML token) rest out) (skipToken ip op s)) := by
  have hip : ip < s.len.toNat := Nat.lt_of_not_le fun hle => by
    rw [List.drop_of_length_le (by simpa using hle)] at hbytes
    cases hbytes
  have hrest : (sourceBytes (skipToken ip op s)).drop (ip + 1) = rest := by
    rw [← List.tail_drop]
    exact congrArg List.tail hbytes
  rw [step_of_token h hbytes, decodeToken, exec_lz4Token_of_open (openStream_skipToken h hip), hrest]
  simp only [skipToken_mem, skipToken_dst, skipToken_cap, hout]

/-- The state in the middle of `LZ4.DECOMPRESS` with the stream bytes `rest` left to read and the output `out` so far. -/
def runningDecompress (s : State) (rest out : List Byte) : State :=
  { s with
    mem := memWriteBytes s.mem s.dst.toNat out
    engine := .decompressing (s.len.toNat - rest.length) out.length }

theorem startDecompress_eq (s : State) : startDecompress s = runningDecompress s (sourceBytes s) [] := by
  rw [runningDecompress, sourceBytes_length, Nat.sub_self]
  rfl

/-- What a pass ends in, as an update of the state in which the command started. -/
def passEndState (s : State) : PassEnd → State
  | .more rest out => runningDecompress s rest out
  | .done out => finishOutput out s
  | .failed c => raiseOutput c s

section
variable {s : State} {rest out : List Byte}

theorem openStream_runningDecompress (hrange : rangeOk s = true) (hcap : out.length ≤ s.cap.toNat) :
    openStream (runningDecompress s rest out) = some (s.len.toNat - rest.length, out.length) :=
  openStream_eq_some.2 ⟨rfl, hrange, Nat.sub_le _ _, hcap⟩

/-- The output so far lies in the destination region, so the source bytes are still those of the start. -/
theorem sourceBytes_runningDecompress (hrange : rangeOk s = true) (hcap : out.length ≤ s.cap.toNat) :
    sourceBytes (runningDecompress s rest out) = sourceBytes s := by
  refine memReadBytes_congr fun a ha => memRead_memWriteBytes_outside fun hin => rangeOk_disjoint hrange ha ?_
  simp only [inRegion] at hin ⊢
  omega

theorem drop_sourceBytes_runningDecompress (hrange : rangeOk s = true) (hcap : out.length ≤ s.cap.toNat)
    (hsuffix : rest <:+ sourceBytes s) :
    (sourceBytes (runningDecompress s rest out)).drop (s.len.toNat - rest.length) = rest := by
  rw [sourceBytes_runningDecompress hrange hcap, ← sourceBytes_length]
  exact (List.suffix_iff_eq_drop.1 hsuffix).symm

theorem memReadBytes_runningDecompress :
    memReadBytes (runningDecompress s rest out).mem s.dst.toNat out.length = out :=
  memReadBytes_memWriteBytes_drop (n := 0) (List.nil_prefix)

theorem endInflate_runningDecompress (hcap : out.length ≤ s.cap.toNat) (r : Except Code (List Byte)) :
    endInflate r (runningDecompress s rest out) = endInflate r s := by
  have hsettle : ∀ bs, settleDst bs (runningDecompress s rest out) = settleDst bs s := fun bs => by
    simp only [settleDst, runningDecompress, memSettle_memWriteBytes hcap]
  cases r with
  | ok out' => exact congrArg (finishOk (BitVec.ofNat 32 out'.length)) (hsettle out')
  | error c => exact congrArg (raise c) (hsettle [])

/-- The end of a pass at a running state, once the token is read: what it appended is stored behind the output so far. -/
theorem endPass_runningDecompress {ip : Nat} {r : PassEnd} (hcap : out.length ≤ s.cap.toNat)
    (hr : ∀ rest' out', r = .more rest' out' → out <+: out') :
    endPass out.length r (skipToken ip out.length (runningDecompress s rest out)) = passEndState s r := by
  cases r with
  | more rest' out' =>
    obtain ⟨new, rfl⟩ := hr rest' out' rfl
    simp only [endPass, skipToken, runningDecompress, passEndState, List.drop_left, memWriteBytes_append]
  | done out' => exact endInflate_runningDecompress (rest := rest) hcap (.ok out')
  | failed c => exact endInflate_runningDecompress (rest := rest) hcap (.error c)

theorem step_runningDecompress_nil (hrange : rangeOk s = true) (hcap : out.length ≤ s.cap.toNat) :
    step (runningDecompress s [] out) = .next (raiseOutput .failSrcOverrun s) := by
  rw [step_of_streamEnd (openStream_runningDecompress hrange hcap)
    (drop_sourceBytes_runningDecompress hrange hcap (List.nil_suffix))]
  exact congrArg Host.Outcome.next (endInflate_runningDecompress hcap (.error .failSrcOverrun))

/-- A step of a running decompressor is one pass of the loop (R131). -/
theorem step_runningDecompress_cons {token : Byte} (hrange : rangeOk s = true) (hcap : out.length ≤ s.cap.toNat)
    (hsuffix : token :: rest <:+ sourceBytes s) : step (runningDecompress s (token :: rest) out) = .next
      (passEndState s (streamPass s.cap.toNat (tokenLL token) (tokenML token) rest out)) := by
  rw [step_of_pass (openStream_runningDecompress hrange hcap) (drop_sourceBytes_runningDecompress hrange hcap hsuffix)
    memReadBytes_runningDecompress]
  exact congrArg Host.Outcome.next (endPass_runningDecompress hcap fun _ _ hpass => (streamPass_more hcap hpass).1)

end

/-- With fuel for the stream bytes that remain, the steps of a running decompressor follow its loop and end the command. -/
theorem run_runningDecompress {s : State} (hrange : rangeOk s = true) (n : Nat) {rest out : List Byte}
    (hsuffix : rest <:+ sourceBytes s) (hcap : out.length ≤ s.cap.toNat) (hn : rest.length < n) :
    ∃ k ≤ n, Host.Core.run Sys2Proof.core k (runningDecompress s rest out) =
      .next (endInflate (inflateLoop s.cap.toNat n rest out) s) := by
  induction n generalizing rest out with
  | zero => omega
  | succ n ih =>
    cases rest with
    | nil => exact ⟨1, Nat.le_add_left 1 n, run_core_succ (step_runningDecompress_nil hrange hcap) 0⟩
    | cons token rest =>
      have hstep := step_runningDecompress_cons hrange hcap hsuffix
      rw [inflateLoop]
      cases hpass : streamPass s.cap.toNat (tokenLL token) (tokenML token) rest out with
      | more rest' out' =>
        rw [hpass] at hstep
        obtain ⟨hrest, hshorter⟩ := streamPass_more_rest hpass
        obtain ⟨k, hk, hrun⟩ := ih (hrest.trans hsuffix) (streamPass_more hcap hpass).2 (by omega)
        exact ⟨k + 1, Nat.succ_le_succ hk, (run_core_succ hstep k).trans hrun⟩
      | done out' =>
        rw [hpass] at hstep
        exact ⟨1, Nat.le_add_left 1 n, run_core_succ hstep 0⟩
      | failed c =>
        rw [hpass] at hstep
        exact ⟨1, Nat.le_add_left 1 n, run_core_succ hstep 0⟩

/-- Settles O39: the loop's fuel is the length of the stream and one, and every pass is a step. -/
theorem decompressIsItsTokenPasses : Obligations.DecompressIsItsTokenPasses := by
  unfold Obligations.DecompressIsItsTokenPasses
  intro s hrange
  obtain ⟨k, hk, hrun⟩ := run_runningDecompress hrange ((sourceBytes s).length + 1) (out := []) List.suffix_rfl
    (Nat.zero_le _) (Nat.lt_succ_self _)
  rw [execLz4Decompress_of_inflate hrange rfl, startDecompress_eq]
  exact ⟨k, sourceBytes_length s ▸ hk, hrun⟩

end Sys2Proof.Machine
end

/-! Every command ends, with one of its listed outcomes: the range check, the availability of `CRC32C.HW`, and the codes of the two
LZ4 engines are all that decides `STATUS` (43_other_classes.md R183, 60_exceptions.md R151). -/
section

namespace Sys2Proof.Machine

/-! The checksum commands (R101). -/

/-- A checksum command may be refused for its source region, or because the platform does not have it. -/
theorem crcFrame_status_mem (available : Bool) (body : State → State) (s : State) :
    (crcFrame available body s).status ∈ [0x01#8, 0x31#8, 0x32#8] := by
  rcases crcFrame_cases available body s with ⟨-, hc⟩ | ⟨-, -, hc⟩ | ⟨-, -, hc⟩ <;>
    simp [hc, codeByte]

/-- A checksum command that is always available is refused for its source region only. -/
theorem crcFrame_true_status_mem (body : State → State) (s : State) :
    (crcFrame true body s).status ∈ [0x01#8, 0x31#8] := by
  rcases crcFrame_cases true body s with ⟨-, hc⟩ | ⟨-, havail, -⟩ | ⟨-, -, hc⟩
  · simp [hc, codeByte]
  · cases havail
  · simp [hc, codeByte]

/-! The LZ4 commands (R110, R130). -/

theorem exec_lz4Compress_status_mem (s : State) :
    ∃ t, exec .lz4Compress s = .next t ∧ t.status ∈ [0x01#8, 0x10#8, 0x11#8, 0x31#8] := by
  rcases execLz4Compress_cases s with ⟨-, hc⟩ | ⟨-, _, -, -, hc⟩ | ⟨-, _, -, hc⟩ | ⟨-, _, -, -, hc⟩ <;>
    exact ⟨_, hc, by simp [codeByte]⟩

/-- The engine fails with a `FAIL_*` code only. -/
theorem exec_lz4Decompress_status_mem (s : State) :
    ∃ t, exec .lz4Decompress s = .next t ∧ t.status ∈ [0x01#8, 0x20#8, 0x21#8, 0x22#8, 0x31#8] := by
  rcases execLz4Decompress_cases s with ⟨-, hc⟩ | ⟨-, _, -, -, hc⟩ | ⟨-, c, herror, hc⟩ <;> refine ⟨_, hc, ?_⟩
  · simp [codeByte]
  · simp [codeByte]
  · have hfail := codeByte_mem_of_failCodes (inflate_error herror)
    exact List.mem_cons_of_mem _ (List.mem_append_left [0x31#8] hfail)

/-! All six. -/

/-- Settles O49: the checksum commands end as their frame does, the LZ4 commands as their range check and their engine do. -/
theorem outcomesOfEachCommand : Obligations.OutcomesOfEachCommand := by
  unfold Obligations.OutcomesOfEachCommand
  exact fun s =>
    ⟨⟨_, rfl, crcFrame_true_status_mem bodySelected s⟩, ⟨_, rfl, crcFrame_status_mem s.platform.hwCrcAvailable bodyHw s⟩,
      ⟨_, rfl, crcFrame_true_status_mem bodyS16 s⟩, ⟨_, rfl, crcFrame_true_status_mem bodyBit s⟩,
      exec_lz4Compress_status_mem s, exec_lz4Decompress_status_mem s⟩

end Sys2Proof.Machine
end

/-! Commands that end without `OK`: a refusal, or an LZ4 engine that started and has no output, and what each leaves as it was
(60_exceptions.md R155, R156). -/
section

namespace Sys2Proof.Machine

/-! How a command ends without `OK`. -/

/-- The outcomes of an LZ4 engine that started and has no output: `NONE_*` and `FAIL_*` (R151, R155). -/
def noOutputCodes : List Code := [.noneCapacity, .noneNoGain] ++ failCodes

theorem codeByte_mem_of_noOutputCodes {c : Code} (h : c ∈ noOutputCodes) :
    codeByte c ∈ [0x10#8, 0x11#8, 0x20#8, 0x21#8, 0x22#8] :=
  List.mem_map_of_mem (f := codeByte) h

/-- A checksum command ends without `OK` only by a refusal, before its body has run (R101). -/
theorem exec_checksum_of_status_ne_ok {i : Instr} (hi : i ∈ checksumCommands) {s t : State} (ht : exec i s = .next t)
    (hfail : t.status ≠ 0x01#8) : ∃ c, t = raise c s := by
  obtain ⟨available, body, -, heq⟩ := exec_checksum_eq hi s
  obtain rfl := Host.Outcome.next.inj (heq.symm.trans ht)
  rcases crcFrame_cases available body s with ⟨-, hc⟩ | ⟨-, -, hc⟩ | ⟨-, -, hc⟩
  · exact ⟨_, hc⟩
  · exact ⟨_, hc⟩
  · rw [hc] at hfail
    exact absurd rfl hfail

/-- An LZ4 command ends without `OK` by the refusal of its regions, or with a code for which its destination region is
unspecified; only `H` has changed before that end (R120, R141). -/
theorem exec_lz4_of_status_ne_ok {i : Instr} (hi : i ∈ lz4Commands) {s t : State} (ht : exec i s = .next t)
    (hfail : t.status ≠ 0x01#8) :
    (∃ c, t = raise c s) ∨ ∃ c ∈ noOutputCodes, ∃ b, t = raiseOutput c (setHash b s) := by
  simp only [lz4Commands, List.mem_cons, List.not_mem_nil, or_false] at hi
  rcases hi with rfl | rfl
  · rcases execLz4Compress_cases s with ⟨-, hc⟩ | ⟨-, b, -, -, hc⟩ | ⟨-, b, -, hc⟩ | ⟨-, b, -, -, hc⟩ <;>
      obtain rfl := Host.Outcome.next.inj (hc.symm.trans ht)
    · exact .inl ⟨_, rfl⟩
    · exact absurd rfl hfail
    · exact .inr ⟨.noneCapacity, by decide, b, rfl⟩
    · exact .inr ⟨.noneNoGain, by decide, b, rfl⟩
  · rcases execLz4Decompress_cases s with ⟨-, hc⟩ | ⟨-, out, -, -, hc⟩ | ⟨-, c, herror, hc⟩ <;>
      obtain rfl := Host.Outcome.next.inj (hc.symm.trans ht)
    · exact .inl ⟨_, rfl⟩
    · exact absurd rfl hfail
    · exact .inr ⟨c, List.mem_append_right _ (inflate_error herror), s.hash, rfl⟩

/-- The two ways in which any command ends without `OK`. -/
theorem exec_of_status_ne_ok {i : Instr} (hi : i ∈ allCommands) {s t : State} (ht : exec i s = .next t)
    (hfail : t.status ≠ 0x01#8) :
    (∃ c, t = raise c s) ∨ ∃ c ∈ noOutputCodes, ∃ b, t = raiseOutput c (setHash b s) := by
  rcases List.mem_append.1 hi with hcrc | hlz4
  · exact .inl (exec_checksum_of_status_ne_ok hcrc ht hfail)
  · exact exec_lz4_of_status_ne_ok hlz4 ht hfail

/-! What both ways leave unchanged. -/

/-- Settles O50: a refusal writes no memory, and an engine without output changes only its destination region, under one of the
five codes that say so. -/
theorem failureLeavesTheRestAsItWas : Obligations.FailureLeavesTheRestAsItWas := by
  unfold Obligations.FailureLeavesTheRestAsItWas
  intro s t i hi ht hfail
  have hsource : sourceBytes t = sourceBytes s := sourceRegionIsNeverWritten s t i hi ht
  rcases exec_of_status_ne_ok hi ht hfail with ⟨c, rfl⟩ | ⟨c, hc, b, rfl⟩
  · exact ⟨rfl, ⟨rfl, rfl, rfl, rfl, rfl⟩, fun _ _ => rfl, hsource, fun _ _ => rfl⟩
  · have houtside : SameMemoryOutside s.dst.toNat s.cap.toNat s (raiseOutput c (setHash b s)) :=
      fun _ ha => memRead_memSettle_outside (Nat.zero_le _) ha
    exact ⟨rfl, ⟨rfl, rfl, rfl, rfl, rfl⟩, houtside, hsource,
      fun hother => absurd (codeByte_mem_of_noOutputCodes hc) hother⟩

/-- Settles O51: neither way runs a step that builds the tables or caches a strategy. -/
theorem failureLeavesTheLazyState : Obligations.FailureLeavesTheLazyState := by
  unfold Obligations.FailureLeavesTheLazyState
  intro s t i hi ht hfail
  rcases exec_of_status_ne_ok hi ht hfail with ⟨c, rfl⟩ | ⟨c, -, b, rfl⟩
  · exact ⟨rfl, rfl, rfl⟩
  · exact ⟨rfl, rfl, rfl⟩

end Sys2Proof.Machine
end

/-! Waiting and the reset event: the two steps of an idle block that run no command and make no access (10_state.md R39,
70_reset_and_hazards.md R170, log entry 1). -/
section

namespace Sys2Proof.Machine

/-- A block between commands with nothing on the host's list waits. -/
theorem step_of_no_action {s : State} (h : s.engine = .idle) (hin : s.inbox = []) : step s = .next s := by
  rw [step_of_idle h, hostStep, hin]

/-- The reset event takes itself off the list and resets the block. -/
theorem step_of_reset {s : State} {rest : List HostAction} (h : s.engine = .idle) (hin : s.inbox = .reset :: rest) :
    step s = .next (resetBlock (takeAction rest s)) :=
  step_of_action h hin

/-- The reset event leaves every byte of buffer memory as it was, and taking an action does not touch memory (R39). -/
theorem resetBlock_takeAction_sameMemory (rest : List HostAction) (s : State) :
    SameMemory s (resetBlock (takeAction rest s)) := fun a => by
  rw [resetBlock_mem, takeAction_mem]

/-- Settles O10: the step is the reset of the block, whose fields are those of `State.reset` but for what the platform and the
host hold. -/
theorem resetEventSetsTheResetValues : Obligations.ResetEventSetsTheResetValues := by
  unfold Obligations.ResetEventSetsTheResetValues
  intro s rest hidle hin
  have hmem : SameMemory s (resetBlock (takeAction rest s)) := resetBlock_takeAction_sameMemory rest s
  refine ⟨resetBlock (takeAction rest s), step_of_reset hidle hin, ?_⟩
  simp [hmem]

/-- Settles O11: the empty list is the case in which a block between commands waits. -/
theorem idleBlockWaits : Obligations.IdleBlockWaits := by
  unfold Obligations.IdleBlockWaits
  exact fun _ => step_of_no_action

end Sys2Proof.Machine
end
